-- ==== Sys2Proof/Word.lean ====
section
/-! DEFINITION. The words of the block: a byte of the stream, a 16-bit quantity of an instruction, and output text (00_scope.md R8). -/

namespace Sys2Proof

/-- A byte of the stream, bits 7 to 0 (R8). -/
abbrev Byte := BitVec 8

/-- A 16-bit quantity: a displacement, a direct address or an immediate (R8, R31). -/
abbrev Word := BitVec 16

/-- Output text: a sequence of ASCII characters, one character being one byte (R8, R23; log entry 10). -/
abbrev Text := List Char

end Sys2Proof
end

