-- ==== Sys2Proof/Config.lean ====
section
/-! DEFINITION. The parameters of 00_scope.md R7 with the values this hardware has. `N` is a field of the
state; `MAX_LEN` is open, `N` and `ip` are unbounded here, and statements that speak of a bound hold for every bound (92 D3; log entry 6). -/

namespace Sys2Proof

/-- What becomes of the text produced before a fatal error (R7, R189; 93 U1). -/
inductive ErrorOutputPolicy where
  | flagged
  | discarded
  deriving DecidableEq, Repr

/-- `STRICT_MATCH`, decided true (92 D4, D5, D6; log entry 7). `false` is the reading R66 describes, which is not this hardware. -/
def Config.strictMatch : Bool := true

/-- `DIRECT_ADDR_SIGNED`, decided false: a direct address is printed 0 to 65535 (92 D8; log entry 8). -/
def Config.directAddrSigned : Bool := false

/-- `ERROR_OUTPUT_POLICY`, decided flagged (92 D9; log entry 9). -/
def Config.errorOutputPolicy : ErrorOutputPolicy := .flagged

end Sys2Proof
end

