-- ==== Sys2Proof/Syntax.lean ====
section
/-! DEFINITION. The instructions: one constructor of `Instr` for each of the 58 rows of spec/opcode_table.json (30_encoding.md R71),
with the operands pulled out of the bytes, and the view of an instruction by its shape (R53). -/

namespace Sys2Proof

/-- The width bit `w`: 0 for 8-bit operands, 1 for 16-bit operands (R9). -/
inductive Width where
  | byte
  | word
  deriving DecidableEq, Repr

/-- The register-or-memory operand of a mod/reg/r-m byte with its displacement (R52, R85). -/
inductive Rm where
  /-- `mod = 11`: the register with this code. -/
  | reg (code : BitVec 3)
  /-- `mod = 00`, `rm = 110`: a 16-bit absolute address, no base. -/
  | direct (addr : Word)
  /-- `mod = 00`, `rm` not `110`: base/index, no displacement. -/
  | base (rm : BitVec 3)
  /-- `mod = 01`: base/index plus a signed 8-bit displacement. -/
  | disp8 (rm : BitVec 3) (disp : Byte)
  /-- `mod = 10`: base/index plus a signed 16-bit displacement. -/
  | disp16 (rm : BitVec 3) (disp : Word)
  deriving DecidableEq, Repr

/-- An immediate as the flags `s` and `w` and its bytes give it (R54, R59, R91). -/
inductive Imm where
  /-- `w = 0`: one byte. `s` is not consulted, and is kept because `0x80` and `0x82` are two encodings (R67). -/
  | byte (s : Bool) (b : Byte)
  /-- `w = 1, s = 1`: one byte, sign-extended. -/
  | sext (b : Byte)
  /-- `w = 1, s = 0`: one word. -/
  | word (v : Word)
  deriving DecidableEq, Repr

/-- The eight arithmetic/logic mnemonics (R62). -/
inductive AluOp where
  | add
  | or
  | adc
  | sbb
  | and
  | sub
  | xor
  | cmp
  deriving DecidableEq, Repr

/-- The sixteen conditional jumps (R63). -/
inductive Jcc where
  | jo
  | jno
  | jb
  | jnb
  | je
  | jne
  | jbe
  | ja
  | js
  | jns
  | jp
  | jnp
  | jl
  | jnl
  | jle
  | jg
  deriving DecidableEq, Repr

/-- The loop instructions and `jcxz` (R64). -/
inductive LoopOp where
  | loopnz
  | loopz
  | loop
  | jcxz
  deriving DecidableEq, Repr

/-- The mnemonics of the shapes RM_REG and IMM_RM: the data move or an arithmetic/logic operation (R53). -/
inductive Op where
  | mov
  | alu (op : AluOp)
  deriving DecidableEq, Repr

/-- One constructor per row of spec/opcode_table.json. `RmReg` is the form `r/m, reg`, `RegRm` the form `reg, r/m`,
`RmImm` the form `r/m, imm`, `AccImm` the form `acc, imm`. -/
inductive Instr where
  /-- R110 -/
  | movRmReg (w : Width) (rm : Rm) (reg : BitVec 3)
  /-- R111 -/
  | movRegRm (w : Width) (rm : Rm) (reg : BitVec 3)
  /-- R112 -/
  | movRmImm (rm : Rm) (imm : Imm)
  /-- R113 -/
  | movRegImm (reg : BitVec 3) (imm : Imm)
  /-- R114 -/
  | movAccMem (w : Width) (addr : Word)
  /-- R115 -/
  | movMemAcc (w : Width) (addr : Word)
  /-- R124, R120 -/
  | addRmReg (w : Width) (rm : Rm) (reg : BitVec 3)
  /-- R124, R121 -/
  | addRegRm (w : Width) (rm : Rm) (reg : BitVec 3)
  /-- R124, R123 -/
  | addAccImm (imm : Imm)
  /-- R124, R122 -/
  | addRmImm (rm : Rm) (imm : Imm)
  /-- R125, R120 -/
  | orRmReg (w : Width) (rm : Rm) (reg : BitVec 3)
  /-- R125, R121 -/
  | orRegRm (w : Width) (rm : Rm) (reg : BitVec 3)
  /-- R125, R123 -/
  | orAccImm (imm : Imm)
  /-- R125, R122 -/
  | orRmImm (rm : Rm) (imm : Imm)
  /-- R126, R120 -/
  | adcRmReg (w : Width) (rm : Rm) (reg : BitVec 3)
  /-- R126, R121 -/
  | adcRegRm (w : Width) (rm : Rm) (reg : BitVec 3)
  /-- R126, R123 -/
  | adcAccImm (imm : Imm)
  /-- R126, R122 -/
  | adcRmImm (rm : Rm) (imm : Imm)
  /-- R127, R120 -/
  | sbbRmReg (w : Width) (rm : Rm) (reg : BitVec 3)
  /-- R127, R121 -/
  | sbbRegRm (w : Width) (rm : Rm) (reg : BitVec 3)
  /-- R127, R123 -/
  | sbbAccImm (imm : Imm)
  /-- R127, R122 -/
  | sbbRmImm (rm : Rm) (imm : Imm)
  /-- R128, R120 -/
  | andRmReg (w : Width) (rm : Rm) (reg : BitVec 3)
  /-- R128, R121 -/
  | andRegRm (w : Width) (rm : Rm) (reg : BitVec 3)
  /-- R128, R123 -/
  | andAccImm (imm : Imm)
  /-- R128, R122 -/
  | andRmImm (rm : Rm) (imm : Imm)
  /-- R129, R120 -/
  | subRmReg (w : Width) (rm : Rm) (reg : BitVec 3)
  /-- R129, R121 -/
  | subRegRm (w : Width) (rm : Rm) (reg : BitVec 3)
  /-- R129, R123 -/
  | subAccImm (imm : Imm)
  /-- R129, R122 -/
  | subRmImm (rm : Rm) (imm : Imm)
  /-- R130, R120 -/
  | xorRmReg (w : Width) (rm : Rm) (reg : BitVec 3)
  /-- R130, R121 -/
  | xorRegRm (w : Width) (rm : Rm) (reg : BitVec 3)
  /-- R130, R123 -/
  | xorAccImm (imm : Imm)
  /-- R130, R122 -/
  | xorRmImm (rm : Rm) (imm : Imm)
  /-- R131, R120 -/
  | cmpRmReg (w : Width) (rm : Rm) (reg : BitVec 3)
  /-- R131, R121 -/
  | cmpRegRm (w : Width) (rm : Rm) (reg : BitVec 3)
  /-- R131, R123 -/
  | cmpAccImm (imm : Imm)
  /-- R131, R122 -/
  | cmpRmImm (rm : Rm) (imm : Imm)
  /-- R143 -/
  | jo (rel8 : Byte)
  /-- R144 -/
  | jno (rel8 : Byte)
  /-- R145 -/
  | jb (rel8 : Byte)
  /-- R146 -/
  | jnb (rel8 : Byte)
  /-- R147 -/
  | je (rel8 : Byte)
  /-- R148 -/
  | jne (rel8 : Byte)
  /-- R149 -/
  | jbe (rel8 : Byte)
  /-- R150 -/
  | ja (rel8 : Byte)
  /-- R151 -/
  | js (rel8 : Byte)
  /-- R152 -/
  | jns (rel8 : Byte)
  /-- R153 -/
  | jp (rel8 : Byte)
  /-- R154 -/
  | jnp (rel8 : Byte)
  /-- R155 -/
  | jl (rel8 : Byte)
  /-- R156 -/
  | jnl (rel8 : Byte)
  /-- R157 -/
  | jle (rel8 : Byte)
  /-- R158 -/
  | jg (rel8 : Byte)
  /-- R161 -/
  | loopnz (rel8 : Byte)
  /-- R162 -/
  | loopz (rel8 : Byte)
  /-- R163 -/
  | loop (rel8 : Byte)
  /-- R164 -/
  | jcxz (rel8 : Byte)
  deriving DecidableEq, Repr

/-- An instruction seen by its shape (R53): what the six shape procedures and the encoding formats are written over. -/
inductive Form where
  | rmReg (op : Op) (d : Bool) (w : Width) (rm : Rm) (reg : BitVec 3)
  | immAcc (op : AluOp) (imm : Imm)
  | immRm (op : Op) (rm : Rm) (imm : Imm)
  | immReg (reg : BitVec 3) (imm : Imm)
  | memAcc (d : Bool) (w : Width) (addr : Word)
  | jump (cc : Jcc) (rel8 : Byte)
  | loop (lp : LoopOp) (rel8 : Byte)
  deriving DecidableEq, Repr

end Sys2Proof
end

