-- ==== Sys2Proof/Machine/Form.lean ====
section
/-! DEFINITION. The two directions between an instruction and its shape view (30_encoding.md R53, R56): each row of the
opcode table is one mnemonic in one shape. -/

namespace Sys2Proof

/-- The shape view of an instruction. -/
def Instr.form : Instr → Form
  | .movRmReg w rm reg => .rmReg .mov false w rm reg
  | .movRegRm w rm reg => .rmReg .mov true w rm reg
  | .movRmImm rm imm => .immRm .mov rm imm
  | .movRegImm reg imm => .immReg reg imm
  | .movAccMem w addr => .memAcc false w addr
  | .movMemAcc w addr => .memAcc true w addr
  | .addRmReg w rm reg => .rmReg (.alu .add) false w rm reg
  | .addRegRm w rm reg => .rmReg (.alu .add) true w rm reg
  | .addAccImm imm => .immAcc .add imm
  | .addRmImm rm imm => .immRm (.alu .add) rm imm
  | .orRmReg w rm reg => .rmReg (.alu .or) false w rm reg
  | .orRegRm w rm reg => .rmReg (.alu .or) true w rm reg
  | .orAccImm imm => .immAcc .or imm
  | .orRmImm rm imm => .immRm (.alu .or) rm imm
  | .adcRmReg w rm reg => .rmReg (.alu .adc) false w rm reg
  | .adcRegRm w rm reg => .rmReg (.alu .adc) true w rm reg
  | .adcAccImm imm => .immAcc .adc imm
  | .adcRmImm rm imm => .immRm (.alu .adc) rm imm
  | .sbbRmReg w rm reg => .rmReg (.alu .sbb) false w rm reg
  | .sbbRegRm w rm reg => .rmReg (.alu .sbb) true w rm reg
  | .sbbAccImm imm => .immAcc .sbb imm
  | .sbbRmImm rm imm => .immRm (.alu .sbb) rm imm
  | .andRmReg w rm reg => .rmReg (.alu .and) false w rm reg
  | .andRegRm w rm reg => .rmReg (.alu .and) true w rm reg
  | .andAccImm imm => .immAcc .and imm
  | .andRmImm rm imm => .immRm (.alu .and) rm imm
  | .subRmReg w rm reg => .rmReg (.alu .sub) false w rm reg
  | .subRegRm w rm reg => .rmReg (.alu .sub) true w rm reg
  | .subAccImm imm => .immAcc .sub imm
  | .subRmImm rm imm => .immRm (.alu .sub) rm imm
  | .xorRmReg w rm reg => .rmReg (.alu .xor) false w rm reg
  | .xorRegRm w rm reg => .rmReg (.alu .xor) true w rm reg
  | .xorAccImm imm => .immAcc .xor imm
  | .xorRmImm rm imm => .immRm (.alu .xor) rm imm
  | .cmpRmReg w rm reg => .rmReg (.alu .cmp) false w rm reg
  | .cmpRegRm w rm reg => .rmReg (.alu .cmp) true w rm reg
  | .cmpAccImm imm => .immAcc .cmp imm
  | .cmpRmImm rm imm => .immRm (.alu .cmp) rm imm
  | .jo rel8 => .jump .jo rel8
  | .jno rel8 => .jump .jno rel8
  | .jb rel8 => .jump .jb rel8
  | .jnb rel8 => .jump .jnb rel8
  | .je rel8 => .jump .je rel8
  | .jne rel8 => .jump .jne rel8
  | .jbe rel8 => .jump .jbe rel8
  | .ja rel8 => .jump .ja rel8
  | .js rel8 => .jump .js rel8
  | .jns rel8 => .jump .jns rel8
  | .jp rel8 => .jump .jp rel8
  | .jnp rel8 => .jump .jnp rel8
  | .jl rel8 => .jump .jl rel8
  | .jnl rel8 => .jump .jnl rel8
  | .jle rel8 => .jump .jle rel8
  | .jg rel8 => .jump .jg rel8
  | .loopnz rel8 => .loop .loopnz rel8
  | .loopz rel8 => .loop .loopz rel8
  | .loop rel8 => .loop .loop rel8
  | .jcxz rel8 => .loop .jcxz rel8

/-- The instruction a shape view stands for. -/
def Form.toInstr : Form → Instr
  | .rmReg .mov false w rm reg => .movRmReg w rm reg
  | .rmReg .mov true w rm reg => .movRegRm w rm reg
  | .immRm .mov rm imm => .movRmImm rm imm
  | .immReg reg imm => .movRegImm reg imm
  | .memAcc false w addr => .movAccMem w addr
  | .memAcc true w addr => .movMemAcc w addr
  | .rmReg (.alu .add) false w rm reg => .addRmReg w rm reg
  | .rmReg (.alu .add) true w rm reg => .addRegRm w rm reg
  | .immAcc .add imm => .addAccImm imm
  | .immRm (.alu .add) rm imm => .addRmImm rm imm
  | .rmReg (.alu .or) false w rm reg => .orRmReg w rm reg
  | .rmReg (.alu .or) true w rm reg => .orRegRm w rm reg
  | .immAcc .or imm => .orAccImm imm
  | .immRm (.alu .or) rm imm => .orRmImm rm imm
  | .rmReg (.alu .adc) false w rm reg => .adcRmReg w rm reg
  | .rmReg (.alu .adc) true w rm reg => .adcRegRm w rm reg
  | .immAcc .adc imm => .adcAccImm imm
  | .immRm (.alu .adc) rm imm => .adcRmImm rm imm
  | .rmReg (.alu .sbb) false w rm reg => .sbbRmReg w rm reg
  | .rmReg (.alu .sbb) true w rm reg => .sbbRegRm w rm reg
  | .immAcc .sbb imm => .sbbAccImm imm
  | .immRm (.alu .sbb) rm imm => .sbbRmImm rm imm
  | .rmReg (.alu .and) false w rm reg => .andRmReg w rm reg
  | .rmReg (.alu .and) true w rm reg => .andRegRm w rm reg
  | .immAcc .and imm => .andAccImm imm
  | .immRm (.alu .and) rm imm => .andRmImm rm imm
  | .rmReg (.alu .sub) false w rm reg => .subRmReg w rm reg
  | .rmReg (.alu .sub) true w rm reg => .subRegRm w rm reg
  | .immAcc .sub imm => .subAccImm imm
  | .immRm (.alu .sub) rm imm => .subRmImm rm imm
  | .rmReg (.alu .xor) false w rm reg => .xorRmReg w rm reg
  | .rmReg (.alu .xor) true w rm reg => .xorRegRm w rm reg
  | .immAcc .xor imm => .xorAccImm imm
  | .immRm (.alu .xor) rm imm => .xorRmImm rm imm
  | .rmReg (.alu .cmp) false w rm reg => .cmpRmReg w rm reg
  | .rmReg (.alu .cmp) true w rm reg => .cmpRegRm w rm reg
  | .immAcc .cmp imm => .cmpAccImm imm
  | .immRm (.alu .cmp) rm imm => .cmpRmImm rm imm
  | .jump .jo rel8 => .jo rel8
  | .jump .jno rel8 => .jno rel8
  | .jump .jb rel8 => .jb rel8
  | .jump .jnb rel8 => .jnb rel8
  | .jump .je rel8 => .je rel8
  | .jump .jne rel8 => .jne rel8
  | .jump .jbe rel8 => .jbe rel8
  | .jump .ja rel8 => .ja rel8
  | .jump .js rel8 => .js rel8
  | .jump .jns rel8 => .jns rel8
  | .jump .jp rel8 => .jp rel8
  | .jump .jnp rel8 => .jnp rel8
  | .jump .jl rel8 => .jl rel8
  | .jump .jnl rel8 => .jnl rel8
  | .jump .jle rel8 => .jle rel8
  | .jump .jg rel8 => .jg rel8
  | .loop .loopnz rel8 => .loopnz rel8
  | .loop .loopz rel8 => .loopz rel8
  | .loop .loop rel8 => .loop rel8
  | .loop .jcxz rel8 => .jcxz rel8

end Sys2Proof
end

