-- ==== Sys2Proof/WellFormed.lean ====
section
/-! DEFINITION. Which instructions an encoding of this hardware can spell. Two checks: the memory operand without displacement has
no base 110 (that code is the direct address, 30_encoding.md R54), and the shapes that fix `s = 0` hold an immediate with `s = 0`
(R56, R59). -/

namespace Sys2Proof

/-- `mod = 00, rm = 110` is the direct address, so it names no base (R54, R86). -/
def Rm.wellFormed : Rm → Bool
  | .base rm => rm != 6#3
  | _ => true

/-- The immediate has the sign-extend flag `s = 0` (R59). -/
def Imm.unextended : Imm → Bool
  | .byte s _ => !s
  | .sext _ => false
  | .word _ => true

def Form.wellFormed : Form → Bool
  | .rmReg _ _ _ rm _ => rm.wellFormed
  | .immAcc _ imm => imm.unextended
  | .immRm .mov rm imm => rm.wellFormed && imm.unextended
  | .immRm (.alu _) rm _ => rm.wellFormed
  | .immReg _ imm => imm.unextended
  | .memAcc _ _ _ => true
  | .jump _ _ => true
  | .loop _ _ => true

def Instr.wellFormed (i : Instr) : Bool := i.form.wellFormed

end Sys2Proof
end

