-- ==== Sys2Proof/Decode.lean ====
section
/-! DEFINITION. The decoder (Field Extractor, the byte-reading halves of the two resolvers, and the byte order of the shapes) and,
after it, the encoder, both from 30_encoding.md R50 to R60 and 40_operand_resolvers.md R81 to R91. -/

namespace Sys2Proof

/-- Why the bytes at `ip` are no instruction. The step adds the offset `ip` (R181 to R183). -/
inductive Reject where
  /-- R181: the opcode byte matches no shape, or `0xC6`/`0xC7` has `reg` not `000`. -/
  | unsupportedOpcode (b0 : Byte)
  /-- R182: a byte the instruction needs lies past the end of the stream. -/
  | truncated
  /-- R183: the resolver was called with `mod = 11`. Unreachable (R89). -/
  | invalidAddressingMode
  deriving DecidableEq, Repr

/-! ### Fields (R51, R52) -/

def Width.ofBit : Bool → Width
  | false => .byte
  | true => .word

def Width.bit : Width → Bool
  | .byte => false
  | .word => true

/-- `b0[7:2]`, the six-bit primary opcode. -/
def op6Field (b0 : Byte) : BitVec 6 := b0.extractLsb' 2 6

/-- `b0[1]`: the direction bit `d`, and the sign-extend flag `s` in the immediate shapes. -/
def dsField (b0 : Byte) : Bool := b0.getLsbD 1

/-- `b0[0]`: the width bit of RM_REG, IMM_ACC, IMM_RM and MEM_ACC. -/
def wField (b0 : Byte) : Width := Width.ofBit (b0.getLsbD 0)

/-- `b0[3]`: the width bit of the short immediate-to-register move. -/
def wShortField (b0 : Byte) : Width := Width.ofBit (b0.getLsbD 3)

/-- `b0[2:0]`: the register of the short immediate-to-register move. -/
def regShortField (b0 : Byte) : BitVec 3 := b0.extractLsb' 0 3

/-- `b0[5:3]`: the arithmetic sub-opcode of RM_REG and IMM_ACC. -/
def aopField (b0 : Byte) : BitVec 3 := b0.extractLsb' 3 3

/-- `b0[3:0]`: the conditional-jump selector. -/
def ccField (b0 : Byte) : BitVec 4 := b0.extractLsb' 0 4

/-- `b0[1:0]`: the loop selector. -/
def lpField (b0 : Byte) : BitVec 2 := b0.extractLsb' 0 2

/-- `b1[7:6]`. -/
def modField (b1 : Byte) : BitVec 2 := b1.extractLsb' 6 2

/-- `b1[5:3]`: a register code, or the arithmetic sub-opcode in shape IMM_RM. -/
def regField (b1 : Byte) : BitVec 3 := b1.extractLsb' 3 3

/-- `b1[2:0]`. -/
def rmField (b1 : Byte) : BitVec 3 := b1.extractLsb' 0 3

/-! ### The selector tables (R62 to R64): which code selects which mnemonic -/

/-- R62, list order as index order (92 D7). -/
def AluOp.ofCode (c : BitVec 3) : AluOp :=
  match c.toNat with
  | 0 => .add | 1 => .or | 2 => .adc | 3 => .sbb | 4 => .and | 5 => .sub | 6 => .xor | _ => .cmp

def AluOp.code : AluOp → BitVec 3
  | .add => 0 | .or => 1 | .adc => 2 | .sbb => 3 | .and => 4 | .sub => 5 | .xor => 6 | .cmp => 7

/-- R63. -/
def Jcc.ofCode (c : BitVec 4) : Jcc :=
  match c.toNat with
  | 0 => .jo | 1 => .jno | 2 => .jb | 3 => .jnb | 4 => .je | 5 => .jne | 6 => .jbe | 7 => .ja
  | 8 => .js | 9 => .jns | 10 => .jp | 11 => .jnp | 12 => .jl | 13 => .jnl | 14 => .jle | _ => .jg

def Jcc.code : Jcc → BitVec 4
  | .jo => 0 | .jno => 1 | .jb => 2 | .jnb => 3 | .je => 4 | .jne => 5 | .jbe => 6 | .ja => 7
  | .js => 8 | .jns => 9 | .jp => 10 | .jnp => 11 | .jl => 12 | .jnl => 13 | .jle => 14 | .jg => 15

/-- R64. -/
def LoopOp.ofCode (c : BitVec 2) : LoopOp :=
  match c.toNat with
  | 0 => .loopnz | 1 => .loopz | 2 => .loop | _ => .jcxz

def LoopOp.code : LoopOp → BitVec 2
  | .loopnz => 0 | .loopz => 1 | .loop => 2 | .jcxz => 3

/-! ### Classification of the opcode byte (R56) -/

/-- What `classify(b0)` answers: the shape with the fields the opcode byte holds, or `Unsupported`. In shape IMM_RM the
arithmetic mnemonic comes from the second byte (R58). -/
inductive OpClass where
  | rmReg (op : Op) (d : Bool) (w : Width)
  | immAcc (op : AluOp) (s : Bool) (w : Width)
  | aluImmRm (s : Bool) (w : Width)
  | movImmRm (w : Width)
  | immReg (w : Width) (reg : BitVec 3)
  | memAcc (d : Bool) (w : Width)
  | jump (cc : Jcc)
  | loop (lp : LoopOp)
  | unsupported
  deriving DecidableEq, Repr

/-- R56 for `strict = true`, the reading R66 describes for `strict = false`. The patterns do not overlap. -/
def classifyWith (strict : Bool) (b0 : Byte) : OpClass :=
  if op6Field b0 = 0b100010#6 then .rmReg .mov (dsField b0) (wField b0)
  else if b0.extractLsb' 6 2 = 0b00#2 then
    if b0.getLsbD 2 = false then .rmReg (.alu (AluOp.ofCode (aopField b0))) (dsField b0) (wField b0)
    else if dsField b0 = false ∨ strict = false then
      .immAcc (AluOp.ofCode (aopField b0)) (dsField b0) (wField b0)
    else .unsupported
  else if op6Field b0 = 0b100000#6 then .aluImmRm (dsField b0) (wField b0)
  else if op6Field b0 = 0b110001#6 then
    if dsField b0 = true ∨ strict = false then .movImmRm (wField b0) else .unsupported
  else if b0.extractLsb' 4 4 = 0b1011#4 then .immReg (wShortField b0) (regShortField b0)
  else if op6Field b0 = 0b101000#6 then .memAcc (dsField b0) (wField b0)
  else if b0.extractLsb' 4 4 = 0b0111#4 then .jump (Jcc.ofCode (ccField b0))
  else if op6Field b0 = 0b111000#6 then .loop (LoopOp.ofCode (lpField b0))
  else .unsupported

/-- The Field Extractor of this hardware (R81). -/
def classify (b0 : Byte) : OpClass := classifyWith Config.strictMatch b0

/-! ### Reading the bytes of a window (R33, R45)

A window is the list of the bytes from some offset on, as far as the stream goes. Reading past its end is the truncation of R182. -/

/-- The next byte of the window. -/
def takeByte : List Byte → Except Reject (Byte × List Byte)
  | b :: bs => .ok (b, bs)
  | [] => .error .truncated

/-- `{hi, lo}` of R8: the byte at the lower offset is the low byte (R31). -/
def wordOfBytes (lo hi : Byte) : Word := hi ++ lo

/-- The next two bytes of the window, little-endian; if only the first is there, neither is returned (R33). -/
def takeWord : List Byte → Except Reject (Word × List Byte)
  | lo :: hi :: bs => .ok (wordOfBytes lo hi, bs)
  | _ => .error .truncated

/-- The Addressing-Mode Resolver's reading half (R86), with its defensive check (R89). -/
def resolveEa (mod : BitVec 2) (rm : BitVec 3) (bs : List Byte) : Except Reject (Rm × List Byte) :=
  if mod = 0b11#2 then .error .invalidAddressingMode
  else if mod = 0b00#2 then
    if rm = 0b110#3 then do
      let (a, bs) ← takeWord bs
      return (.direct a, bs)
    else return (.base rm, bs)
  else if mod = 0b01#2 then do
    let (d, bs) ← takeByte bs
    return (.disp8 rm d, bs)
  else do
    let (d, bs) ← takeWord bs
    return (.disp16 rm d, bs)

/-- The register-or-memory operand (R83): register-direct operands never reach the resolver. -/
def resolveRm (mod : BitVec 2) (rm : BitVec 3) (bs : List Byte) : Except Reject (Rm × List Byte) :=
  if mod = 0b11#2 then return (.reg rm, bs) else resolveEa mod rm bs

/-- The Immediate Resolver's reading half (R91). -/
def resolveImm (s : Bool) (w : Width) (bs : List Byte) : Except Reject (Imm × List Byte) :=
  match w, s with
  | .byte, s => do
    let (b, bs) ← takeByte bs
    return (.byte s b, bs)
  | .word, true => do
    let (b, bs) ← takeByte bs
    return (.sext b, bs)
  | .word, false => do
    let (v, bs) ← takeWord bs
    return (.word v, bs)

/-! ### The decoder -/

/-- Reads one instruction from the front of a window and returns it with the rest of the window. The order of the checks is
that of R187. -/
def decodeFormWith (strict : Bool) : List Byte → Except Reject (Form × List Byte)
  | [] => .error .truncated
  | b0 :: bs =>
    match classifyWith strict b0 with
    | .rmReg op d w => do
      let (b1, bs) ← takeByte bs
      let (rm, bs) ← resolveRm (modField b1) (rmField b1) bs
      return (.rmReg op d w rm (regField b1), bs)
    | .immAcc op s w => do
      let (imm, bs) ← resolveImm s w bs
      return (.immAcc op imm, bs)
    | .aluImmRm s w => do
      let (b1, bs) ← takeByte bs
      let (rm, bs) ← resolveRm (modField b1) (rmField b1) bs
      let (imm, bs) ← resolveImm s w bs
      return (.immRm (.alu (AluOp.ofCode (regField b1))) rm imm, bs)
    | .movImmRm w => do
      let (b1, bs) ← takeByte bs
      if regField b1 ≠ 0b000#3 ∧ strict = true then .error (.unsupportedOpcode b0)
      else
        let (rm, bs) ← resolveRm (modField b1) (rmField b1) bs
        let (imm, bs) ← resolveImm false w bs
        return (.immRm .mov rm imm, bs)
    | .immReg w reg => do
      let (imm, bs) ← resolveImm false w bs
      return (.immReg reg imm, bs)
    | .memAcc d w => do
      let (a, bs) ← takeWord bs
      return (.memAcc d w a, bs)
    | .jump cc => do
      let (r, bs) ← takeByte bs
      return (.jump cc r, bs)
    | .loop lp => do
      let (r, bs) ← takeByte bs
      return (.loop lp r, bs)
    | .unsupported => .error (.unsupportedOpcode b0)

def decodeWith (strict : Bool) (bs : List Byte) : Except Reject (Instr × List Byte) :=
  (decodeFormWith strict bs).map fun p => (p.1.toInstr, p.2)

/-- The decoder of this hardware. -/
def decode (bs : List Byte) : Except Reject (Instr × List Byte) := decodeWith Config.strictMatch bs

/-! ### Lengths (R54) -/

/-- `dlen(mod, rm)`. -/
def dlen (mod : BitVec 2) (rm : BitVec 3) : Nat :=
  if mod = 0b00#2 then (if rm = 0b110#3 then 2 else 0)
  else if mod = 0b01#2 then 1
  else if mod = 0b10#2 then 2
  else 0

/-- `ilen(s, w)`. -/
def ilen (s : Bool) (w : Width) : Nat :=
  match w, s with
  | .byte, _ => 1
  | .word, true => 1
  | .word, false => 2

/-- The `mod` field an operand is encoded with. -/
def Rm.modBits : Rm → BitVec 2
  | .reg _ => 0b11
  | .direct _ => 0b00
  | .base _ => 0b00
  | .disp8 _ _ => 0b01
  | .disp16 _ _ => 0b10

/-- The `rm` field an operand is encoded with. -/
def Rm.rmBits : Rm → BitVec 3
  | .reg c => c
  | .direct _ => 0b110
  | .base rm => rm
  | .disp8 rm _ => rm
  | .disp16 rm _ => rm

/-- How many displacement bytes an operand has; `dlen` of its fields when it is well formed. -/
def Rm.dispLen : Rm → Nat
  | .reg _ => 0
  | .direct _ => 2
  | .base _ => 0
  | .disp8 _ _ => 1
  | .disp16 _ _ => 2

def Imm.width : Imm → Width
  | .byte _ _ => .byte
  | .sext _ => .word
  | .word _ => .word

/-- The sign-extend flag an immediate is encoded with. -/
def Imm.s : Imm → Bool
  | .byte s _ => s
  | .sext _ => true
  | .word _ => false

def Imm.len (imm : Imm) : Nat := ilen imm.s imm.width

/-- The length in bytes, by shape (R54). -/
def Form.len : Form → Nat
  | .rmReg _ _ _ rm _ => 2 + rm.dispLen
  | .immAcc _ imm => 1 + imm.len
  | .immRm _ rm imm => 2 + rm.dispLen + imm.len
  | .immReg _ imm => 1 + imm.len
  | .memAcc _ _ _ => 3
  | .jump _ _ => 2
  | .loop _ _ => 2

def Instr.len (i : Instr) : Nat := i.form.len

/-! ### The encoder (R50, R55, R56) -/

/-- An opcode byte of six fixed bits, `d` or `s`, and `w`. -/
def opByte (op6 : BitVec 6) (ds w : Bool) : Byte := op6 ++ BitVec.ofBool ds ++ BitVec.ofBool w

/-- The mod/reg/r-m byte. -/
def modRegRm (mod : BitVec 2) (reg rm : BitVec 3) : Byte := mod ++ reg ++ rm

/-- Low byte first (R31). -/
def wordBytes (v : Word) : List Byte := [v.extractLsb' 0 8, v.extractLsb' 8 8]

def Rm.dispBytes : Rm → List Byte
  | .reg _ => []
  | .direct a => wordBytes a
  | .base _ => []
  | .disp8 _ d => [d]
  | .disp16 _ d => wordBytes d

def Imm.bytes : Imm → List Byte
  | .byte _ b => [b]
  | .sext b => [b]
  | .word v => wordBytes v

/-- The six opcode bits of shape RM_REG: `100010` or `00aaa0`. -/
def Op.rmRegBits : Op → BitVec 6
  | .mov => 0b100010#6
  | .alu op => 0b00#2 ++ op.code ++ 0b0#1

def Form.encode : Form → List Byte
  | .rmReg op d w rm reg =>
    opByte op.rmRegBits d w.bit :: modRegRm rm.modBits reg rm.rmBits :: rm.dispBytes
  | .immAcc op imm => opByte (0b00#2 ++ op.code ++ 0b1#1) imm.s imm.width.bit :: imm.bytes
  | .immRm .mov rm imm =>
    opByte 0b110001#6 true imm.width.bit :: modRegRm rm.modBits 0b000#3 rm.rmBits :: (rm.dispBytes ++ imm.bytes)
  | .immRm (.alu op) rm imm =>
    opByte 0b100000#6 imm.s imm.width.bit :: modRegRm rm.modBits op.code rm.rmBits :: (rm.dispBytes ++ imm.bytes)
  | .immReg reg imm => (0b1011#4 ++ BitVec.ofBool imm.width.bit ++ reg : BitVec (4 + 1 + 3)) :: imm.bytes
  | .memAcc d w a => opByte 0b101000#6 d w.bit :: wordBytes a
  | .jump cc r => [(0b0111#4 ++ cc.code : BitVec (4 + 4)), r]
  | .loop lp r => [(0b111000#6 ++ lp.code : BitVec (6 + 2)), r]

/-- The bytes of a well-formed instruction in ascending offset order. -/
def encode (i : Instr) : List Byte := i.form.encode

/-! ### The opcode table's numbering -/

/-- The six bytes of an instruction whose bits are `w` as spec/opcode_table.json numbers them: the table's word is
`b0 * 256 + b1` (R71), so the first byte is bits 15..8 and the second bits 7..0; any further byte counts on from bit 16;
every byte the table gives no bits is 0 (log entry 5). -/
def tableBytes (nbits w : Nat) : List Byte :=
  if nbits ≤ 8 ∧ w < 256 then [BitVec.ofNat 8 w, 0, 0, 0, 0, 0]
  else [BitVec.ofNat 8 (w / 2 ^ 8), BitVec.ofNat 8 w, BitVec.ofNat 8 (w / 2 ^ 16), BitVec.ofNat 8 (w / 2 ^ 24),
        BitVec.ofNat 8 (w / 2 ^ 32), BitVec.ofNat 8 (w / 2 ^ 40)]

/-- The instruction the decoder reads from the opcode table's word. -/
def decodeTableWord (nbits w : Nat) : Option Instr :=
  match decode (tableBytes nbits w) with
  | .ok (i, _) => some i
  | .error _ => none

end Sys2Proof
end

