-- ==== Sys2Proof/Machine/Operands.lean ====
section
/-! DEFINITION. The constant tables and the text of every operand (10_state.md R13 to R17, 30_encoding.md R62 to R64,
40_operand_resolvers.md R82 to R96, 00_scope.md R8). -/

namespace Sys2Proof.Machine

/-! ### The name tables -/

/-- `reg8` (R14). -/
def reg8 (c : BitVec 3) : Text :=
  match c.toNat with
  | 0 => ['a', 'l'] | 1 => ['c', 'l'] | 2 => ['d', 'l'] | 3 => ['b', 'l']
  | 4 => ['a', 'h'] | 5 => ['c', 'h'] | 6 => ['d', 'h'] | _ => ['b', 'h']

/-- `reg16` (R15). -/
def reg16 (c : BitVec 3) : Text :=
  match c.toNat with
  | 0 => ['a', 'x'] | 1 => ['c', 'x'] | 2 => ['d', 'x'] | 3 => ['b', 'x']
  | 4 => ['s', 'p'] | 5 => ['b', 'p'] | 6 => ['s', 'i'] | _ => ['d', 'i']

/-- `regname(w, c)` (R13). -/
def regname : Width → BitVec 3 → Text
  | .byte, c => reg8 c
  | .word, c => reg16 c

/-- `acc(w)` (R16). -/
def acc : Width → Text
  | .byte => ['a', 'l']
  | .word => ['a', 'x']

/-- `eabase` (R17). -/
def eabase (rm : BitVec 3) : Text :=
  match rm.toNat with
  | 0 => ['b', 'x', ' ', '+', ' ', 's', 'i']
  | 1 => ['b', 'x', ' ', '+', ' ', 'd', 'i']
  | 2 => ['b', 'p', ' ', '+', ' ', 's', 'i']
  | 3 => ['b', 'p', ' ', '+', ' ', 'd', 'i']
  | 4 => ['s', 'i']
  | 5 => ['d', 'i']
  | 6 => ['b', 'p']
  | _ => ['b', 'x']

/-- The names of the arithmetic/logic table (R62). -/
def aluName : AluOp → Text
  | .add => ['a', 'd', 'd']
  | .or => ['o', 'r']
  | .adc => ['a', 'd', 'c']
  | .sbb => ['s', 'b', 'b']
  | .and => ['a', 'n', 'd']
  | .sub => ['s', 'u', 'b']
  | .xor => ['x', 'o', 'r']
  | .cmp => ['c', 'm', 'p']

/-- The names of the conditional-jump table (R63); synonyms are never printed (R69). -/
def jccName : Jcc → Text
  | .jo => ['j', 'o']
  | .jno => ['j', 'n', 'o']
  | .jb => ['j', 'b']
  | .jnb => ['j', 'n', 'b']
  | .je => ['j', 'e']
  | .jne => ['j', 'n', 'e']
  | .jbe => ['j', 'b', 'e']
  | .ja => ['j', 'a']
  | .js => ['j', 's']
  | .jns => ['j', 'n', 's']
  | .jp => ['j', 'p']
  | .jnp => ['j', 'n', 'p']
  | .jl => ['j', 'l']
  | .jnl => ['j', 'n', 'l']
  | .jle => ['j', 'l', 'e']
  | .jg => ['j', 'g']

/-- The names of the loop table (R64). -/
def loopName : LoopOp → Text
  | .loopnz => ['l', 'o', 'o', 'p', 'n', 'z']
  | .loopz => ['l', 'o', 'o', 'p', 'z']
  | .loop => ['l', 'o', 'o', 'p']
  | .jcxz => ['j', 'c', 'x', 'z']

/-- The mnemonic of the data move. -/
def movName : Text := ['m', 'o', 'v']

def opName : Op → Text
  | .mov => movName
  | .alu op => aluName op

/-- `alu[c]`, `jcc[c]`, `loopn[c]` of R62 to R64. -/
def alu (c : BitVec 3) : Text := aluName (AluOp.ofCode c)
def jcc (c : BitVec 4) : Text := jccName (Jcc.ofCode c)
def loopn (c : BitVec 2) : Text := loopName (LoopOp.ofCode c)

/-! ### Numbers (R8, R96) -/

/-- `zext_16`. -/
def zext16 (b : Byte) : Word := b.setWidth 16

/-- `sext_16`: bits 15 to 8 are copies of bit 7. -/
def sext16 (b : Byte) : Word := b.signExtend 16

/-- `signed_8`. -/
def signed8 (b : Byte) : Int := if b.toNat < 128 then b.toNat else (b.toNat : Int) - 256

/-- `signed_16`. -/
def signed16 (v : Word) : Int := if v.toNat < 32768 then v.toNat else (v.toNat : Int) - 65536

/-- A decimal digit. -/
def digit (n : Nat) : Char := Char.ofNat (48 + n % 10)

/-- The digits of `n` before `acc`, most significant first; `fuel` above `n` is enough. -/
def decDigits : Nat → Nat → Text → Text
  | 0, _, acc => acc
  | fuel + 1, n, acc => if n < 10 then digit n :: acc else decDigits fuel (n / 10) (digit n :: acc)

/-- `dec` of a natural number: no leading zero, `0` for zero (92 D17). -/
def decNat (n : Nat) : Text := decDigits (n + 1) n []

/-- `dec` (R8): a `-` before the magnitude of a negative number; the magnitude is a natural number, so it never overflows. -/
def dec (z : Int) : Text := if z < 0 then '-' :: decNat z.natAbs else decNat z.natAbs

/-! ### Operand texts -/

/-- The text of an effective address with a base (R86, R87): no numeric term for a displacement of zero, else the sign and the
magnitude. -/
def baseText (base : Text) (disp : Int) : Text :=
  if disp = 0 then ['['] ++ base ++ [']']
  else if 0 < disp then ['['] ++ base ++ [' ', '+', ' '] ++ dec disp ++ [']']
  else ['['] ++ base ++ [' ', '-', ' '] ++ decNat disp.natAbs ++ [']']

/-- A direct address (R86, R93): unsigned, unless `DIRECT_ADDR_SIGNED`. -/
def addrTextWith (isSigned : Bool) (a : Word) : Text :=
  ['['] ++ (if isSigned then dec (signed16 a) else decNat a.toNat) ++ [']']

/-- A direct address as this hardware prints it (92 D8). -/
def addrText (a : Word) : Text := addrTextWith Config.directAddrSigned a

/-- The register-or-memory operand (R83, R86). The width matters only for a register. -/
def rmText (w : Width) : Rm → Text
  | .reg c => regname w c
  | .direct a => addrText a
  | .base rm => baseText (eabase rm) 0
  | .disp8 rm d => baseText (eabase rm) (signed8 d)
  | .disp16 rm d => baseText (eabase rm) (signed16 d)

/-- Whether the operand is memory (`mod` other than `11`). -/
def isMemory : Rm → Bool
  | .reg _ => false
  | _ => true

/-- The 16-bit value of an immediate (R91). -/
def immValue : Imm → Word
  | .byte _ b => zext16 b
  | .sext b => sext16 b
  | .word v => v

/-- The text of an immediate (R91): the decimal of its signed 16-bit value. -/
def immText (imm : Imm) : Text := dec (signed16 (immValue imm))

/-- `target` (R94). -/
def targetText (rel8 : Byte) : Text :=
  let r := signed8 rel8
  if 0 < r then ['$', '+', '2', '+'] ++ dec r
  else if r < 0 then ['$', '+', '2', '-'] ++ decNat r.natAbs
  else ['$', '+', '0']

/-- `sizeprefix` (R95). -/
def sizePrefix : Width → Text
  | .byte => ['b', 'y', 't', 'e', ' ']
  | .word => ['w', 'o', 'r', 'd', ' ']

end Sys2Proof.Machine
end

