-- ==== Sys2Proof/Machine/State.lean ====
section
/-! DEFINITION. The state of the block (10_state.md R10), its error conditions (60_exceptions.md R180), the state after reset (R29),
and the two reasons for which a step could stop without a next state. -/

namespace Sys2Proof.Machine

/-- The byte stream `S`: the (offset, byte) pairs in strictly rising order of the offset, none holding the byte 0, which an
unlisted offset below `N` reads as (log entry 2). -/
abbrev Memory := List Host.Cell

/-- The four error conditions (R180), a closed enumeration without numeric codes (92 D10). `offset` is the `ip` of the first byte of
the offending instruction (92 D11). -/
inductive Condition where
  /-- R181: the opcode byte matches no supported shape, or `0xC6`/`0xC7` with a `reg` field other than `000`. -/
  | unsupportedOpcode (byte : Byte) (offset : Nat)
  /-- R182: a byte of the instruction after the first lies at or past `N`. -/
  | truncatedInstruction (offset : Nat)
  /-- R183: `mod = 11` handed to the Addressing-Mode Resolver. No byte stream reaches it. -/
  | invalidAddressingMode (offset : Nat)
  /-- R184: a decoded instruction with a source and no destination. No byte stream reaches it. -/
  | malformedInstruction (offset : Nat)
  deriving DecidableEq, Repr

/-- The run status (R24). `done` and `fault` are absorbing. -/
inductive Status where
  | running
  | done
  | fault (c : Condition)
  deriving DecidableEq, Repr

/-- The whole state (R10): "exactly the four elements below and nothing else". -/
structure State where
  /-- `S`, the byte stream, never written during a run (R11, R30). -/
  mem : Memory
  /-- `N`, its length in bytes (R11). -/
  len : Nat
  /-- The instruction pointer: the offset of the next undecoded instruction (R19), unbounded (R21; log entry 6). -/
  ip : Nat
  /-- The output accumulator (R23). -/
  out : Text
  /-- The run status (R24). -/
  status : Status
  deriving DecidableEq, Repr

/-- Reasons for which the machine would stop without a next state. There is none, hence no constructor: every error condition of the
block is a `Condition` recorded in `status` by a next state (R186; log entry 1). -/
inductive Fault where
  deriving DecidableEq, Repr

/-- Reasons for which the model gives an instruction no meaning. -/
inductive Refusal where
  /-- Raised by an arm of `exec` whose instruction has no meaning yet (safe). Every arm has its meaning, so nothing raises it. -/
  | notModelled (mnemonic : String)
  deriving DecidableEq, Repr

/-- The outcome of a step or of an instruction. -/
abbrev Result := Host.Outcome State Fault Refusal

/-- The fixed header, `bits 16` and two newlines: nine characters (R29). -/
def header : Text := ['b', 'i', 't', 's', ' ', '1', '6', '\n', '\n']

/-- The start state of R29 with the empty stream: `S` and `N` are "given by the caller; not a reset value" (log entries 3 and 4). -/
def State.reset : State :=
  { mem := [], len := 0, ip := 0, out := header, status := .running }

end Sys2Proof.Machine
end

