-- ==== Sys2Proof/Machine/Shapes.lean ====
section
/-! DEFINITION. The decoded-instruction record (10_state.md R22), the six shape procedures over the operands the decoder has read
(40_operand_resolvers.md R104 to R109), and the renderer (R97). -/

namespace Sys2Proof.Machine

/-- `D = (mn, dst, src, len)` (R22); an absent operand is the empty text. -/
structure Decoded where
  mn : Text
  dst : Text
  src : Text
  len : Nat
  deriving DecidableEq, Repr

/-- R104: `d` false makes the register-or-memory operand the destination, `d` true the register. -/
def shapeRmReg (mn : Text) (d : Bool) (w : Width) (rm : Rm) (reg : BitVec 3) : Decoded :=
  match d with
  | false => ⟨mn, rmText w rm, regname w reg, 2 + rm.dispLen⟩
  | true => ⟨mn, regname w reg, rmText w rm, 2 + rm.dispLen⟩

/-- R105. -/
def shapeImmAcc (mn : Text) (imm : Imm) : Decoded :=
  ⟨mn, acc imm.width, immText imm, 1 + imm.len⟩

/-- R106: the size prefix stands before the immediate when the destination is memory (R70, R95). -/
def shapeImmRm (mn : Text) (rm : Rm) (imm : Imm) : Decoded :=
  ⟨mn, rmText imm.width rm, (if isMemory rm then sizePrefix imm.width ++ immText imm else immText imm),
    2 + rm.dispLen + imm.len⟩

/-- R107. -/
def shapeImmReg (reg : BitVec 3) (imm : Imm) : Decoded :=
  ⟨movName, regname imm.width reg, immText imm, 1 + imm.len⟩

/-- R108: `d` false loads the accumulator, `d` true stores it. -/
def shapeMemAcc (d : Bool) (w : Width) (a : Word) : Decoded :=
  match d with
  | false => ⟨movName, acc w, addrText a, 3⟩
  | true => ⟨movName, addrText a, acc w, 3⟩

/-- R109: the target sits in the destination slot, there is no source (92 D14). -/
def shapeJump8 (mn : Text) (rel8 : Byte) : Decoded :=
  ⟨mn, targetText rel8, [], 2⟩

/-- The record of an instruction seen by its shape. -/
def recordOf : Form → Decoded
  | .rmReg op d w rm reg => shapeRmReg (opName op) d w rm reg
  | .immAcc op imm => shapeImmAcc (aluName op) imm
  | .immRm op rm imm => shapeImmRm (opName op) rm imm
  | .immReg reg imm => shapeImmReg reg imm
  | .memAcc d w a => shapeMemAcc d w a
  | .jump cc r => shapeJump8 (jccName cc) r
  | .loop lp r => shapeJump8 (loopName lp) r

/-- `render` (R97): one line, or the invariant violation of R184. -/
def render (ip : Nat) (d : Decoded) : Except Condition Text :=
  if d.src ≠ [] ∧ d.dst = [] then .error (.malformedInstruction ip)
  else
    let withDst := if d.dst ≠ [] then d.mn ++ [' '] ++ d.dst else d.mn
    let withSrc := if d.dst ≠ [] ∧ d.src ≠ [] then withDst ++ [',', ' '] ++ d.src else withDst
    .ok (withSrc ++ ['\n'])

end Sys2Proof.Machine
end

