-- ==== Sys2Proof/Machine/Ops.lean ====
section
/-! DEFINITION. The named operations over the state: reading the stream (20_memory.md R33), raising an error condition
(60_exceptions.md R186), finishing a run (R100), completing an instruction (R100), and the caller's handing over of a stream
(70_reset_and_hazards.md R200). There is no return from a condition (R188) and no write to the stream during a run (R35). -/

namespace Sys2Proof.Machine

/-! ### The stream as data -/

/-- The byte at an offset: the listed byte, and 0 where none is listed. Offsets at or past `N` are refused by `memRead1`. -/
def Memory.get : Memory → Nat → Byte
  | [], _ => 0#8
  | (k, b) :: m, a => if k = a then b else Memory.get m a

/-- Insert an entry before the first entry with a larger offset. -/
def Memory.insertCell (a : Nat) (b : Byte) : Memory → Memory
  | [] => [(a, b)]
  | (k, c) :: m => if a < k then (a, b) :: (k, c) :: m else (k, c) :: Memory.insertCell a b m

/-- The stream with the byte at `a` replaced, in the canonical form: the byte 0 is not listed. Only the caller, placing a
stream before a run, uses it (R35). -/
def Memory.set (m : Memory) (a : Nat) (b : Byte) : Memory :=
  let rest := m.filter fun c => c.1 != a
  if b = 0#8 then rest else Memory.insertCell a b rest

/-- Place bytes at successive offsets from `a` on. -/
def Memory.setBytes (m : Memory) (a : Nat) : List Byte → Memory
  | [] => m
  | b :: bs => Memory.setBytes (Memory.set m a b) (a + 1) bs

/-- Offsets strictly rising from `lo` on, and no listed byte 0. -/
def Memory.wfFrom : Nat → Memory → Bool
  | _, [] => true
  | lo, (k, b) :: m => decide (lo ≤ k) && (b != 0#8) && Memory.wfFrom (k + 1) m

/-- The canonical form: equal streams are equal data. -/
def Memory.wf (m : Memory) : Bool := Memory.wfFrom 0 m

/-- No entry lies at or past the length. -/
def Memory.within (m : Memory) (n : Nat) : Bool := m.all fun c => decide (c.1 < n)

/-! ### Reading the stream -/

/-- `MemRead(addr, 1)` (R33): the bound is checked before any byte is read. -/
def memRead1 (s : State) (addr : Nat) : Except Condition Byte :=
  if s.len < addr + 1 then .error (.truncatedInstruction s.ip) else .ok (s.mem.get addr)

/-- `MemRead(addr, 2)` (R33): little-endian (R31). -/
def memRead2 (s : State) (addr : Nat) : Except Condition Word :=
  if s.len < addr + 2 then .error (.truncatedInstruction s.ip)
  else .ok (wordOfBytes (s.mem.get addr) (s.mem.get (addr + 1)))

/-- The window at `a` (R45): up to `k` bytes, read one after the other until the stream ends. -/
def window (s : State) : Nat → Nat → List Byte
  | 0, _ => []
  | k + 1, a =>
    match memRead1 s a with
    | .ok b => b :: window s k (a + 1)
    | .error _ => []

/-- The longest instruction is 6 bytes (R54, R37). -/
def maxLen : Nat := 6

/-! ### Changing the state -/

/-- The state with another run status; nothing else changes. -/
def State.setStatus (s : State) (st : Status) : State := { s with status := st }

/-- The state with text appended to `out` (the only write to it, R23) and `ip` moved on (R20); nothing else changes. -/
def State.advance (s : State) (line : Text) (len : Nat) : State :=
  { s with out := s.out ++ line, ip := s.ip + len }

/-- Raise an error condition (R186): the status records it, `ip` and `out` keep their values, and the stream is never written. -/
def raise (c : Condition) (s : State) : Result := .next (s.setStatus (.fault c))

/-- The end of the stream is reached (R100). -/
def finish (s : State) : Result := .next (s.setStatus .done)

/-- Complete an instruction (R100): render its record, append the line and advance `ip` by its length. An instruction that
does not fit into the rest of the stream raises `TruncatedInstruction` (R182), which comes before the renderer's check (R187;
log entry 11). -/
def retire (d : Decoded) (s : State) : Result :=
  if s.len < s.ip + d.len then raise (.truncatedInstruction s.ip) s
  else
    match render s.ip d with
    | .error c => raise c s
    | .ok line => .next (s.advance line d.len)

/-! ### The caller's side (R200 to R203) -/

/-- The start of a run: the caller hands over the stream, everything else has its start value (R29, R200). -/
def State.start (bs : List Byte) : State :=
  { State.reset with mem := Memory.setBytes [] 0 bs, len := bs.length }

/-- The state with bytes placed at `ip` as part of the stream, ready to decode them: the stream reaches at least to their end
and the run is on (log entry 4). -/
def State.place (s : State) (bs : List Byte) : State :=
  { s with mem := s.mem.setBytes s.ip bs, len := max s.len (s.ip + bs.length), status := .running }

/-! ### Fetching and decoding -/

/-- The condition a refusal of the decoder raises: it carries the offset of the instruction's first byte (R181 to R183). -/
def conditionOf (ip : Nat) : Reject → Condition
  | .unsupportedOpcode b0 => .unsupportedOpcode b0 ip
  | .truncated => .truncatedInstruction ip
  | .invalidAddressingMode => .invalidAddressingMode ip

/-- Decode the instruction at `ip` from the window there. -/
def fetch (s : State) : Except Condition Instr :=
  match decode (window s maxLen s.ip) with
  | .ok (i, _) => .ok i
  | .error r => .error (conditionOf s.ip r)

end Sys2Proof.Machine
end

