-- ==== Sys2Proof/Machine/Alu.lean ====
section
/-! DEFINITION. The meanings of the arithmetic/logic family (42_alu.md R120 to R131): four forms of each of eight mnemonics. -/

namespace Sys2Proof.Machine

/-- R124 in the form of R120, `add r/m, reg`. -/
def execAddRmReg (w : Width) (rm : Rm) (reg : BitVec 3) (s : State) : Result :=
  retire (shapeRmReg (aluName .add) false w rm reg) s

/-- R124 in the form of R121, `add reg, r/m`. -/
def execAddRegRm (w : Width) (rm : Rm) (reg : BitVec 3) (s : State) : Result :=
  retire (shapeRmReg (aluName .add) true w rm reg) s

/-- R124 in the form of R123, `add acc, imm`. -/
def execAddAccImm (imm : Imm) (s : State) : Result :=
  retire (shapeImmAcc (aluName .add) imm) s

/-- R124 in the form of R122, `add r/m, imm`. -/
def execAddRmImm (rm : Rm) (imm : Imm) (s : State) : Result :=
  retire (shapeImmRm (aluName .add) rm imm) s

/-- R125 in the form of R120, `or r/m, reg`. -/
def execOrRmReg (w : Width) (rm : Rm) (reg : BitVec 3) (s : State) : Result :=
  retire (shapeRmReg (aluName .or) false w rm reg) s

/-- R125 in the form of R121, `or reg, r/m`. -/
def execOrRegRm (w : Width) (rm : Rm) (reg : BitVec 3) (s : State) : Result :=
  retire (shapeRmReg (aluName .or) true w rm reg) s

/-- R125 in the form of R123, `or acc, imm`. -/
def execOrAccImm (imm : Imm) (s : State) : Result :=
  retire (shapeImmAcc (aluName .or) imm) s

/-- R125 in the form of R122, `or r/m, imm`. -/
def execOrRmImm (rm : Rm) (imm : Imm) (s : State) : Result :=
  retire (shapeImmRm (aluName .or) rm imm) s

/-- R126 in the form of R120, `adc r/m, reg`. -/
def execAdcRmReg (w : Width) (rm : Rm) (reg : BitVec 3) (s : State) : Result :=
  retire (shapeRmReg (aluName .adc) false w rm reg) s

/-- R126 in the form of R121, `adc reg, r/m`. -/
def execAdcRegRm (w : Width) (rm : Rm) (reg : BitVec 3) (s : State) : Result :=
  retire (shapeRmReg (aluName .adc) true w rm reg) s

/-- R126 in the form of R123, `adc acc, imm`. -/
def execAdcAccImm (imm : Imm) (s : State) : Result :=
  retire (shapeImmAcc (aluName .adc) imm) s

/-- R126 in the form of R122, `adc r/m, imm`. -/
def execAdcRmImm (rm : Rm) (imm : Imm) (s : State) : Result :=
  retire (shapeImmRm (aluName .adc) rm imm) s

/-- R127 in the form of R120, `sbb r/m, reg`. -/
def execSbbRmReg (w : Width) (rm : Rm) (reg : BitVec 3) (s : State) : Result :=
  retire (shapeRmReg (aluName .sbb) false w rm reg) s

/-- R127 in the form of R121, `sbb reg, r/m`. -/
def execSbbRegRm (w : Width) (rm : Rm) (reg : BitVec 3) (s : State) : Result :=
  retire (shapeRmReg (aluName .sbb) true w rm reg) s

/-- R127 in the form of R123, `sbb acc, imm`. -/
def execSbbAccImm (imm : Imm) (s : State) : Result :=
  retire (shapeImmAcc (aluName .sbb) imm) s

/-- R127 in the form of R122, `sbb r/m, imm`. -/
def execSbbRmImm (rm : Rm) (imm : Imm) (s : State) : Result :=
  retire (shapeImmRm (aluName .sbb) rm imm) s

/-- R128 in the form of R120, `and r/m, reg`. -/
def execAndRmReg (w : Width) (rm : Rm) (reg : BitVec 3) (s : State) : Result :=
  retire (shapeRmReg (aluName .and) false w rm reg) s

/-- R128 in the form of R121, `and reg, r/m`. -/
def execAndRegRm (w : Width) (rm : Rm) (reg : BitVec 3) (s : State) : Result :=
  retire (shapeRmReg (aluName .and) true w rm reg) s

/-- R128 in the form of R123, `and acc, imm`. -/
def execAndAccImm (imm : Imm) (s : State) : Result :=
  retire (shapeImmAcc (aluName .and) imm) s

/-- R128 in the form of R122, `and r/m, imm`. -/
def execAndRmImm (rm : Rm) (imm : Imm) (s : State) : Result :=
  retire (shapeImmRm (aluName .and) rm imm) s

/-- R129 in the form of R120, `sub r/m, reg`. -/
def execSubRmReg (w : Width) (rm : Rm) (reg : BitVec 3) (s : State) : Result :=
  retire (shapeRmReg (aluName .sub) false w rm reg) s

/-- R129 in the form of R121, `sub reg, r/m`. -/
def execSubRegRm (w : Width) (rm : Rm) (reg : BitVec 3) (s : State) : Result :=
  retire (shapeRmReg (aluName .sub) true w rm reg) s

/-- R129 in the form of R123, `sub acc, imm`. -/
def execSubAccImm (imm : Imm) (s : State) : Result :=
  retire (shapeImmAcc (aluName .sub) imm) s

/-- R129 in the form of R122, `sub r/m, imm`. -/
def execSubRmImm (rm : Rm) (imm : Imm) (s : State) : Result :=
  retire (shapeImmRm (aluName .sub) rm imm) s

/-- R130 in the form of R120, `xor r/m, reg`. -/
def execXorRmReg (w : Width) (rm : Rm) (reg : BitVec 3) (s : State) : Result :=
  retire (shapeRmReg (aluName .xor) false w rm reg) s

/-- R130 in the form of R121, `xor reg, r/m`. -/
def execXorRegRm (w : Width) (rm : Rm) (reg : BitVec 3) (s : State) : Result :=
  retire (shapeRmReg (aluName .xor) true w rm reg) s

/-- R130 in the form of R123, `xor acc, imm`. -/
def execXorAccImm (imm : Imm) (s : State) : Result :=
  retire (shapeImmAcc (aluName .xor) imm) s

/-- R130 in the form of R122, `xor r/m, imm`. -/
def execXorRmImm (rm : Rm) (imm : Imm) (s : State) : Result :=
  retire (shapeImmRm (aluName .xor) rm imm) s

/-- R131 in the form of R120, `cmp r/m, reg`. -/
def execCmpRmReg (w : Width) (rm : Rm) (reg : BitVec 3) (s : State) : Result :=
  retire (shapeRmReg (aluName .cmp) false w rm reg) s

/-- R131 in the form of R121, `cmp reg, r/m`. -/
def execCmpRegRm (w : Width) (rm : Rm) (reg : BitVec 3) (s : State) : Result :=
  retire (shapeRmReg (aluName .cmp) true w rm reg) s

/-- R131 in the form of R123, `cmp acc, imm`. -/
def execCmpAccImm (imm : Imm) (s : State) : Result :=
  retire (shapeImmAcc (aluName .cmp) imm) s

/-- R131 in the form of R122, `cmp r/m, imm`. -/
def execCmpRmImm (rm : Rm) (imm : Imm) (s : State) : Result :=
  retire (shapeImmRm (aluName .cmp) rm imm) s

end Sys2Proof.Machine
end

