-- ==== Sys2Proof/Machine/Jumps.lean ====
section
/-! DEFINITION. The meanings of the conditional jumps (43_cond_jumps.md R140, R143 to R158). The condition is never evaluated and the
jump is never followed (R141, R142). -/

namespace Sys2Proof.Machine

/-- R143, `jo`. -/
def execJo (rel8 : Byte) (s : State) : Result := retire (shapeJump8 (jccName .jo) rel8) s

/-- R144, `jno`. -/
def execJno (rel8 : Byte) (s : State) : Result := retire (shapeJump8 (jccName .jno) rel8) s

/-- R145, `jb`. -/
def execJb (rel8 : Byte) (s : State) : Result := retire (shapeJump8 (jccName .jb) rel8) s

/-- R146, `jnb`. -/
def execJnb (rel8 : Byte) (s : State) : Result := retire (shapeJump8 (jccName .jnb) rel8) s

/-- R147, `je`. -/
def execJe (rel8 : Byte) (s : State) : Result := retire (shapeJump8 (jccName .je) rel8) s

/-- R148, `jne`. -/
def execJne (rel8 : Byte) (s : State) : Result := retire (shapeJump8 (jccName .jne) rel8) s

/-- R149, `jbe`. -/
def execJbe (rel8 : Byte) (s : State) : Result := retire (shapeJump8 (jccName .jbe) rel8) s

/-- R150, `ja`. -/
def execJa (rel8 : Byte) (s : State) : Result := retire (shapeJump8 (jccName .ja) rel8) s

/-- R151, `js`. -/
def execJs (rel8 : Byte) (s : State) : Result := retire (shapeJump8 (jccName .js) rel8) s

/-- R152, `jns`. -/
def execJns (rel8 : Byte) (s : State) : Result := retire (shapeJump8 (jccName .jns) rel8) s

/-- R153, `jp`. -/
def execJp (rel8 : Byte) (s : State) : Result := retire (shapeJump8 (jccName .jp) rel8) s

/-- R154, `jnp`. -/
def execJnp (rel8 : Byte) (s : State) : Result := retire (shapeJump8 (jccName .jnp) rel8) s

/-- R155, `jl`. -/
def execJl (rel8 : Byte) (s : State) : Result := retire (shapeJump8 (jccName .jl) rel8) s

/-- R156, `jnl`. -/
def execJnl (rel8 : Byte) (s : State) : Result := retire (shapeJump8 (jccName .jnl) rel8) s

/-- R157, `jle`. -/
def execJle (rel8 : Byte) (s : State) : Result := retire (shapeJump8 (jccName .jle) rel8) s

/-- R158, `jg`. -/
def execJg (rel8 : Byte) (s : State) : Result := retire (shapeJump8 (jccName .jg) rel8) s

end Sys2Proof.Machine
end

