-- ==== Sys2Proof/Machine/Loops.lean ====
section
/-! DEFINITION. The meanings of the loop instructions and `jcxz` (44_loops.md R160 to R164). No `cx` is decremented or printed. -/

namespace Sys2Proof.Machine

/-- R161, `loopnz`. -/
def execLoopnz (rel8 : Byte) (s : State) : Result := retire (shapeJump8 (loopName .loopnz) rel8) s

/-- R162, `loopz`. -/
def execLoopz (rel8 : Byte) (s : State) : Result := retire (shapeJump8 (loopName .loopz) rel8) s

/-- R163, `loop`. -/
def execLoop (rel8 : Byte) (s : State) : Result := retire (shapeJump8 (loopName .loop) rel8) s

/-- R164, `jcxz`. -/
def execJcxz (rel8 : Byte) (s : State) : Result := retire (shapeJump8 (loopName .jcxz) rel8) s

end Sys2Proof.Machine
end

