-- ==== Sys2Proof/Machine/Mov.lean ====
section
/-! DEFINITION. The meanings of the `mov` family (41_mov.md R110 to R115). -/

namespace Sys2Proof.Machine

/-- R110, `mov r/m, reg`. -/
def execMovRmReg (w : Width) (rm : Rm) (reg : BitVec 3) (s : State) : Result :=
  retire (shapeRmReg movName false w rm reg) s

/-- R111, `mov reg, r/m`. -/
def execMovRegRm (w : Width) (rm : Rm) (reg : BitVec 3) (s : State) : Result :=
  retire (shapeRmReg movName true w rm reg) s

/-- R112, `mov r/m, imm`. That `reg` is `000` is checked by the decoder. -/
def execMovRmImm (rm : Rm) (imm : Imm) (s : State) : Result :=
  retire (shapeImmRm movName rm imm) s

/-- R113, `mov reg, imm`. -/
def execMovRegImm (reg : BitVec 3) (imm : Imm) (s : State) : Result :=
  retire (shapeImmReg reg imm) s

/-- R114, `mov acc, [addr]`. -/
def execMovAccMem (w : Width) (addr : Word) (s : State) : Result :=
  retire (shapeMemAcc false w addr) s

/-- R115, `mov [addr], acc`. -/
def execMovMemAcc (w : Width) (addr : Word) (s : State) : Result :=
  retire (shapeMemAcc true w addr) s

end Sys2Proof.Machine
end

