-- ==== Sys2Proof/Machine/Dispatch.lean ====
section
/-! DEFINITION. One arm per row of spec/opcode_table.json. -/

namespace Sys2Proof.Machine

def exec (i : Instr) (s : State) : Host.Outcome State Fault Refusal :=
  match i with
  | .movRmReg w rm reg => Sys2Proof.Machine.execMovRmReg w rm reg s
  | .movRegRm w rm reg => Sys2Proof.Machine.execMovRegRm w rm reg s
  | .movRmImm rm imm => Sys2Proof.Machine.execMovRmImm rm imm s
  | .movRegImm reg imm => Sys2Proof.Machine.execMovRegImm reg imm s
  | .movAccMem w addr => Sys2Proof.Machine.execMovAccMem w addr s
  | .movMemAcc w addr => Sys2Proof.Machine.execMovMemAcc w addr s
  | .addRmReg w rm reg => Sys2Proof.Machine.execAddRmReg w rm reg s
  | .addRegRm w rm reg => Sys2Proof.Machine.execAddRegRm w rm reg s
  | .addAccImm imm => Sys2Proof.Machine.execAddAccImm imm s
  | .addRmImm rm imm => Sys2Proof.Machine.execAddRmImm rm imm s
  | .orRmReg w rm reg => Sys2Proof.Machine.execOrRmReg w rm reg s
  | .orRegRm w rm reg => Sys2Proof.Machine.execOrRegRm w rm reg s
  | .orAccImm imm => Sys2Proof.Machine.execOrAccImm imm s
  | .orRmImm rm imm => Sys2Proof.Machine.execOrRmImm rm imm s
  | .adcRmReg w rm reg => Sys2Proof.Machine.execAdcRmReg w rm reg s
  | .adcRegRm w rm reg => Sys2Proof.Machine.execAdcRegRm w rm reg s
  | .adcAccImm imm => Sys2Proof.Machine.execAdcAccImm imm s
  | .adcRmImm rm imm => Sys2Proof.Machine.execAdcRmImm rm imm s
  | .sbbRmReg w rm reg => Sys2Proof.Machine.execSbbRmReg w rm reg s
  | .sbbRegRm w rm reg => Sys2Proof.Machine.execSbbRegRm w rm reg s
  | .sbbAccImm imm => Sys2Proof.Machine.execSbbAccImm imm s
  | .sbbRmImm rm imm => Sys2Proof.Machine.execSbbRmImm rm imm s
  | .andRmReg w rm reg => Sys2Proof.Machine.execAndRmReg w rm reg s
  | .andRegRm w rm reg => Sys2Proof.Machine.execAndRegRm w rm reg s
  | .andAccImm imm => Sys2Proof.Machine.execAndAccImm imm s
  | .andRmImm rm imm => Sys2Proof.Machine.execAndRmImm rm imm s
  | .subRmReg w rm reg => Sys2Proof.Machine.execSubRmReg w rm reg s
  | .subRegRm w rm reg => Sys2Proof.Machine.execSubRegRm w rm reg s
  | .subAccImm imm => Sys2Proof.Machine.execSubAccImm imm s
  | .subRmImm rm imm => Sys2Proof.Machine.execSubRmImm rm imm s
  | .xorRmReg w rm reg => Sys2Proof.Machine.execXorRmReg w rm reg s
  | .xorRegRm w rm reg => Sys2Proof.Machine.execXorRegRm w rm reg s
  | .xorAccImm imm => Sys2Proof.Machine.execXorAccImm imm s
  | .xorRmImm rm imm => Sys2Proof.Machine.execXorRmImm rm imm s
  | .cmpRmReg w rm reg => Sys2Proof.Machine.execCmpRmReg w rm reg s
  | .cmpRegRm w rm reg => Sys2Proof.Machine.execCmpRegRm w rm reg s
  | .cmpAccImm imm => Sys2Proof.Machine.execCmpAccImm imm s
  | .cmpRmImm rm imm => Sys2Proof.Machine.execCmpRmImm rm imm s
  | .jo rel8 => Sys2Proof.Machine.execJo rel8 s
  | .jno rel8 => Sys2Proof.Machine.execJno rel8 s
  | .jb rel8 => Sys2Proof.Machine.execJb rel8 s
  | .jnb rel8 => Sys2Proof.Machine.execJnb rel8 s
  | .je rel8 => Sys2Proof.Machine.execJe rel8 s
  | .jne rel8 => Sys2Proof.Machine.execJne rel8 s
  | .jbe rel8 => Sys2Proof.Machine.execJbe rel8 s
  | .ja rel8 => Sys2Proof.Machine.execJa rel8 s
  | .js rel8 => Sys2Proof.Machine.execJs rel8 s
  | .jns rel8 => Sys2Proof.Machine.execJns rel8 s
  | .jp rel8 => Sys2Proof.Machine.execJp rel8 s
  | .jnp rel8 => Sys2Proof.Machine.execJnp rel8 s
  | .jl rel8 => Sys2Proof.Machine.execJl rel8 s
  | .jnl rel8 => Sys2Proof.Machine.execJnl rel8 s
  | .jle rel8 => Sys2Proof.Machine.execJle rel8 s
  | .jg rel8 => Sys2Proof.Machine.execJg rel8 s
  | .loopnz rel8 => Sys2Proof.Machine.execLoopnz rel8 s
  | .loopz rel8 => Sys2Proof.Machine.execLoopz rel8 s
  | .loop rel8 => Sys2Proof.Machine.execLoop rel8 s
  | .jcxz rel8 => Sys2Proof.Machine.execJcxz rel8 s

end Sys2Proof.Machine
end

