-- ==== Sys2Proof/Machine/Step.lean ====
section
/-! DEFINITION. The step (40_operand_resolvers.md R100): the only transition of the block. -/

namespace Sys2Proof.Machine

/-- R100. A run that is over stays as it is (R24); at the end of the stream it is done; else the instruction at `ip` is decoded and
its meaning taken, or the condition its bytes raise. -/
def step (s : State) : Host.Outcome State Fault Refusal :=
  match s.status with
  | .running =>
    if s.ip = s.len then finish s
    else
      match fetch s with
      | .ok i => exec i s
      | .error c => raise c s
  | .done => .next s
  | .fault _ => .next s

/-- The opcode table's word placed where the next step decodes it (log entry 4). -/
def State.withFetchWord (s : State) (nbits w : Nat) : State := s.place (tableBytes nbits w)

end Sys2Proof.Machine
end

