-- ==== Sys2Proof/Machine/Pseudocode.lean ====
section
/-! DEFINITION. The step as the spec's pseudocode writes it (40_operand_resolvers.md R83, R86, R91, R93, R94, R97, R100, R104 to
R109): every byte is read by `MemRead` at an absolute offset, and each resolver reads its bytes and makes its text in one go. The
machine's `step` is written over decoded instructions instead; that the two agree is an obligation. -/

namespace Sys2Proof.Machine

/-- R86: effective-address text and number of displacement bytes. -/
def Pseudocode.ea (s : State) (mod : BitVec 2) (rm : BitVec 3) (a : Nat) : Except Condition (Text × Nat) := do
  if mod = 0b11#2 then
    throw (.invalidAddressingMode s.ip)
  if mod = 0b00#2 ∧ rm = 0b110#3 then
    let addr ← memRead2 s a
    return (['['] ++ dec addr.toNat ++ [']'], 2)
  let (disp, n) ←
    (if mod = 0b00#2 then return (0, 0)
     else if mod = 0b01#2 then do
       let b ← memRead1 s a
       return (signed8 b, 1)
     else do
       let v ← memRead2 s a
       return (signed16 v, 2) : Except Condition (Int × Nat))
  let base := eabase rm
  if disp = 0 then return (['['] ++ base ++ [']'], n)
  else if disp > 0 then return (['['] ++ base ++ [' ', '+', ' '] ++ dec disp ++ [']'], n)
  else return (['['] ++ base ++ [' ', '-', ' '] ++ dec disp.natAbs ++ [']'], n)

/-- R83: the register-or-memory operand. -/
def Pseudocode.rmoperand (s : State) (mod : BitVec 2) (rm : BitVec 3) (w : Width) (a : Nat) :
    Except Condition (Text × Nat) :=
  if mod = 0b11#2 then .ok (regname w rm, 0) else Pseudocode.ea s mod rm a

/-- R91: immediate text and number of immediate bytes. -/
def Pseudocode.imm (s : State) (sx : Bool) (w : Width) (a : Nat) : Except Condition (Text × Nat) := do
  if w = .byte then
    let b ← memRead1 s a
    return (dec (signed16 (zext16 b)), 1)
  else if sx = true then
    let b ← memRead1 s a
    return (dec (signed16 (sext16 b)), 1)
  else
    let v ← memRead2 s a
    return (dec (signed16 v), 2)

/-- R93: the direct address of shape MEM_ACC. -/
def Pseudocode.diraddr (s : State) (a : Nat) : Except Condition Text := do
  let addr ← memRead2 s a
  return ['['] ++ dec addr.toNat ++ [']']

/-- R94: the jump target. -/
def Pseudocode.target (r : Int) : Text :=
  if r > 0 then ['$', '+', '2', '+'] ++ dec r
  else if r < 0 then ['$', '+', '2', '-'] ++ dec r.natAbs
  else ['$', '+', '0']

/-- R104. -/
def Pseudocode.shapeRmReg (s : State) (mn : Text) (b0 : Byte) : Except Condition Decoded := do
  let d := b0.getLsbD 1
  let w := wField b0
  let b1 ← memRead1 s (s.ip + 1)
  let r := regname w (regField b1)
  let (m, n) ← Pseudocode.rmoperand s (modField b1) (rmField b1) w (s.ip + 2)
  if d = false then return ⟨mn, m, r, 2 + n⟩
  else return ⟨mn, r, m, 2 + n⟩

/-- R105. -/
def Pseudocode.shapeImmAcc (s : State) (mn : Text) (b0 : Byte) : Except Condition Decoded := do
  let w := wField b0
  let (i, k) ← Pseudocode.imm s (b0.getLsbD 1) w (s.ip + 1)
  return ⟨mn, acc w, i, 1 + k⟩

/-- R106. The `reg` check of the `mov` branch comes right after `b1` is read. -/
def Pseudocode.shapeImmRm (s : State) (b0 : Byte) : Except Condition Decoded := do
  let w := wField b0
  let b1 ← memRead1 s (s.ip + 1)
  let (mn, sx) ←
    (if b0.extractLsb' 1 7 = 0b1100011#7 then
       (if regField b1 ≠ 0b000#3 then throw (.unsupportedOpcode b0 s.ip) else return (movName, false))
     else return (alu (regField b1), b0.getLsbD 1) : Except Condition (Text × Bool))
  let (m, n) ← Pseudocode.rmoperand s (modField b1) (rmField b1) w (s.ip + 2)
  let (i, k) ← Pseudocode.imm s sx w (s.ip + 2 + n)
  let i := if modField b1 ≠ 0b11#2 then sizePrefix w ++ i else i
  return ⟨mn, m, i, 2 + n + k⟩

/-- R107. -/
def Pseudocode.shapeImmReg (s : State) (b0 : Byte) : Except Condition Decoded := do
  let w := wShortField b0
  let (i, k) ← Pseudocode.imm s false w (s.ip + 1)
  return ⟨movName, regname w (regShortField b0), i, 1 + k⟩

/-- R108. -/
def Pseudocode.shapeMemAcc (s : State) (b0 : Byte) : Except Condition Decoded := do
  let w := wField b0
  let a ← Pseudocode.diraddr s (s.ip + 1)
  if b0.getLsbD 1 = false then return ⟨movName, acc w, a, 3⟩
  else return ⟨movName, a, acc w, 3⟩

/-- R109. -/
def Pseudocode.shapeJump8 (s : State) (mn : Text) : Except Condition Decoded := do
  let rel8 ← memRead1 s (s.ip + 1)
  return ⟨mn, Pseudocode.target (signed8 rel8), [], 2⟩

/-- The case distinction of R100 on `classify(b0)`. -/
def Pseudocode.decodeAt (s : State) (b0 : Byte) : Except Condition Decoded :=
  match classify b0 with
  | .unsupported => .error (.unsupportedOpcode b0 s.ip)
  | .rmReg op _ _ => Pseudocode.shapeRmReg s (opName op) b0
  | .immAcc op _ _ => Pseudocode.shapeImmAcc s (aluName op) b0
  | .aluImmRm _ _ => Pseudocode.shapeImmRm s b0
  | .movImmRm _ => Pseudocode.shapeImmRm s b0
  | .immReg _ _ => Pseudocode.shapeImmReg s b0
  | .memAcc _ _ => Pseudocode.shapeMemAcc s b0
  | .jump cc => Pseudocode.shapeJump8 s (jccName cc)
  | .loop lp => Pseudocode.shapeJump8 s (loopName lp)

/-- The end of R100's step for a record or a raised condition: `Emit(render(D))` and `ip <- ip + D.len`, or the state of R186. -/
def Pseudocode.conclude (s : State) (d : Except Condition Decoded) : State :=
  let emitted : Except Condition (Text × Nat) := do
    let d ← d
    let line ← render s.ip d
    return (line, d.len)
  match emitted with
  | .ok (line, n) => { s with out := s.out ++ line, ip := s.ip + n }
  | .error c => { s with status := .fault c }

/-- R100. -/
def Pseudocode.step (s : State) : State :=
  if s.status ≠ .running then s
  else if s.ip = s.len then { s with status := .done }
  else
    Pseudocode.conclude s (do
      let b0 ← memRead1 s s.ip
      Pseudocode.decodeAt s b0)

end Sys2Proof.Machine
end

