-- ==== Sys2Proof/Machine/Table.lean ====
section
/-! DEFINITION. spec/opcode_table.json as data (30_encoding.md R71): for each row its mnemonic, its operand form, and the match and
mask over the word `b0 * 256 + b1`. The decoder does not read this table; that the two agree is an obligation. -/

namespace Sys2Proof.Machine

/-- The "operands" entry of a row. -/
inductive OperandForm where
  /-- RM_REG, `r/m, reg` -/
  | rmReg
  /-- RM_REG, `reg, r/m` -/
  | regRm
  /-- IMM_RM, `r/m, imm` -/
  | rmImm
  /-- IMM_ACC, `acc, imm` -/
  | accImm
  /-- IMM_REG, `reg, imm` -/
  | regImm
  /-- MEM_ACC, `acc, [addr]` -/
  | accMem
  /-- MEM_ACC, `[addr], acc` -/
  | memAcc
  /-- JUMP8, `target` -/
  | target
  deriving DecidableEq, Repr

structure TableRow where
  mnemonic : Text
  operands : OperandForm
  matchBits : BitVec 16
  mask : BitVec 16
  deriving DecidableEq, Repr

/-- "A row matches when ((b0 * 256 + b1) AND mask) = match" (R71). -/
def TableRow.selects (r : TableRow) (b0 b1 : Byte) : Bool := (b0 ++ b1 : BitVec (8 + 8)) &&& r.mask == r.matchBits

/-- The rows of format RM_REG. -/
def tableRmReg : List TableRow :=
  [⟨['m', 'o', 'v'], .rmReg, 0x8800#16, 0xFE00#16⟩,
   ⟨['m', 'o', 'v'], .regRm, 0x8A00#16, 0xFE00#16⟩,
   ⟨['a', 'd', 'd'], .rmReg, 0x0000#16, 0xFE00#16⟩,
   ⟨['a', 'd', 'd'], .regRm, 0x0200#16, 0xFE00#16⟩,
   ⟨['o', 'r'], .rmReg, 0x0800#16, 0xFE00#16⟩,
   ⟨['o', 'r'], .regRm, 0x0A00#16, 0xFE00#16⟩,
   ⟨['a', 'd', 'c'], .rmReg, 0x1000#16, 0xFE00#16⟩,
   ⟨['a', 'd', 'c'], .regRm, 0x1200#16, 0xFE00#16⟩,
   ⟨['s', 'b', 'b'], .rmReg, 0x1800#16, 0xFE00#16⟩,
   ⟨['s', 'b', 'b'], .regRm, 0x1A00#16, 0xFE00#16⟩,
   ⟨['a', 'n', 'd'], .rmReg, 0x2000#16, 0xFE00#16⟩,
   ⟨['a', 'n', 'd'], .regRm, 0x2200#16, 0xFE00#16⟩,
   ⟨['s', 'u', 'b'], .rmReg, 0x2800#16, 0xFE00#16⟩,
   ⟨['s', 'u', 'b'], .regRm, 0x2A00#16, 0xFE00#16⟩,
   ⟨['x', 'o', 'r'], .rmReg, 0x3000#16, 0xFE00#16⟩,
   ⟨['x', 'o', 'r'], .regRm, 0x3200#16, 0xFE00#16⟩,
   ⟨['c', 'm', 'p'], .rmReg, 0x3800#16, 0xFE00#16⟩,
   ⟨['c', 'm', 'p'], .regRm, 0x3A00#16, 0xFE00#16⟩]

/-- The rows of format IMM_RM. -/
def tableImmRm : List TableRow :=
  [⟨['m', 'o', 'v'], .rmImm, 0xC600#16, 0xFE38#16⟩,
   ⟨['a', 'd', 'd'], .rmImm, 0x8000#16, 0xFC38#16⟩,
   ⟨['o', 'r'], .rmImm, 0x8008#16, 0xFC38#16⟩,
   ⟨['a', 'd', 'c'], .rmImm, 0x8010#16, 0xFC38#16⟩,
   ⟨['s', 'b', 'b'], .rmImm, 0x8018#16, 0xFC38#16⟩,
   ⟨['a', 'n', 'd'], .rmImm, 0x8020#16, 0xFC38#16⟩,
   ⟨['s', 'u', 'b'], .rmImm, 0x8028#16, 0xFC38#16⟩,
   ⟨['x', 'o', 'r'], .rmImm, 0x8030#16, 0xFC38#16⟩,
   ⟨['c', 'm', 'p'], .rmImm, 0x8038#16, 0xFC38#16⟩]

/-- The rows of format IMM_REG. -/
def tableImmReg : List TableRow :=
  [⟨['m', 'o', 'v'], .regImm, 0xB000#16, 0xF000#16⟩]

/-- The rows of format MEM_ACC. -/
def tableMemAcc : List TableRow :=
  [⟨['m', 'o', 'v'], .accMem, 0xA000#16, 0xFE00#16⟩,
   ⟨['m', 'o', 'v'], .memAcc, 0xA200#16, 0xFE00#16⟩]

/-- The rows of format IMM_ACC. -/
def tableImmAcc : List TableRow :=
  [⟨['a', 'd', 'd'], .accImm, 0x0400#16, 0xFE00#16⟩,
   ⟨['o', 'r'], .accImm, 0x0C00#16, 0xFE00#16⟩,
   ⟨['a', 'd', 'c'], .accImm, 0x1400#16, 0xFE00#16⟩,
   ⟨['s', 'b', 'b'], .accImm, 0x1C00#16, 0xFE00#16⟩,
   ⟨['a', 'n', 'd'], .accImm, 0x2400#16, 0xFE00#16⟩,
   ⟨['s', 'u', 'b'], .accImm, 0x2C00#16, 0xFE00#16⟩,
   ⟨['x', 'o', 'r'], .accImm, 0x3400#16, 0xFE00#16⟩,
   ⟨['c', 'm', 'p'], .accImm, 0x3C00#16, 0xFE00#16⟩]

/-- The rows of format JUMP8. -/
def tableJump8 : List TableRow :=
  [⟨['j', 'o'], .target, 0x7000#16, 0xFF00#16⟩,
   ⟨['j', 'n', 'o'], .target, 0x7100#16, 0xFF00#16⟩,
   ⟨['j', 'b'], .target, 0x7200#16, 0xFF00#16⟩,
   ⟨['j', 'n', 'b'], .target, 0x7300#16, 0xFF00#16⟩,
   ⟨['j', 'e'], .target, 0x7400#16, 0xFF00#16⟩,
   ⟨['j', 'n', 'e'], .target, 0x7500#16, 0xFF00#16⟩,
   ⟨['j', 'b', 'e'], .target, 0x7600#16, 0xFF00#16⟩,
   ⟨['j', 'a'], .target, 0x7700#16, 0xFF00#16⟩,
   ⟨['j', 's'], .target, 0x7800#16, 0xFF00#16⟩,
   ⟨['j', 'n', 's'], .target, 0x7900#16, 0xFF00#16⟩,
   ⟨['j', 'p'], .target, 0x7A00#16, 0xFF00#16⟩,
   ⟨['j', 'n', 'p'], .target, 0x7B00#16, 0xFF00#16⟩,
   ⟨['j', 'l'], .target, 0x7C00#16, 0xFF00#16⟩,
   ⟨['j', 'n', 'l'], .target, 0x7D00#16, 0xFF00#16⟩,
   ⟨['j', 'l', 'e'], .target, 0x7E00#16, 0xFF00#16⟩,
   ⟨['j', 'g'], .target, 0x7F00#16, 0xFF00#16⟩,
   ⟨['l', 'o', 'o', 'p', 'n', 'z'], .target, 0xE000#16, 0xFF00#16⟩,
   ⟨['l', 'o', 'o', 'p', 'z'], .target, 0xE100#16, 0xFF00#16⟩,
   ⟨['l', 'o', 'o', 'p'], .target, 0xE200#16, 0xFF00#16⟩,
   ⟨['j', 'c', 'x', 'z'], .target, 0xE300#16, 0xFF00#16⟩]

/-- All 58 rows. -/
def opcodeTable : List TableRow :=
  tableRmReg ++ tableImmRm ++ tableImmReg ++ tableMemAcc ++ tableImmAcc ++ tableJump8

/-- The operand form of an instruction's row. -/
def operandForm : Form → OperandForm
  | .rmReg _ false _ _ _ => .rmReg
  | .rmReg _ true _ _ _ => .regRm
  | .immAcc _ _ => .accImm
  | .immRm _ _ _ => .rmImm
  | .immReg _ _ => .regImm
  | .memAcc false _ _ => .accMem
  | .memAcc true _ _ => .memAcc
  | .jump _ _ => .target
  | .loop _ _ => .target

end Sys2Proof.Machine
end

