-- ==== Sys2Proof/Safety.lean ====
section
/-! DEFINITION. What the statements speak of beside the machine: the invariant of a run, the line of an instruction, the grammar of a
line (30_encoding.md R68), and what the caller gets (70_reset_and_hazards.md R203 to R206). -/

namespace Sys2Proof.Machine

/-! ### The invariant -/

/-- The characters the block emits: `0x0A`, `0x20` to `0x7E` (92 D16). -/
def asciiChar (c : Char) : Bool := c == '\n' || (decide (32 ≤ c.toNat) && decide (c.toNat ≤ 126))

/-- What a status says of the rest of the state (R24, R181, R182, R186, R204): a run that is done has decoded the whole stream, and a
run that has faulted stands at the first byte of the offending instruction, for one of the two conditions a stream can raise. -/
def statusFits (s : State) : Prop :=
  match s.status with
  | .running => True
  | .done => s.ip = s.len
  | .fault (.unsupportedOpcode b o) => o = s.ip ∧ s.ip < s.len ∧ b = s.mem.get s.ip
  | .fault (.truncatedInstruction o) => o = s.ip ∧ s.ip < s.len
  | .fault (.invalidAddressingMode _) => False
  | .fault (.malformedInstruction _) => False

/-- The invariant of a run: the stream keeps its canonical form, `0 <= ip <= N` (R19), the output begins with the header (R23, R29) and
is ASCII (D16), and the status fits. -/
structure Inv (s : State) : Prop where
  wf : s.mem.wf = true
  within : s.mem.within s.len = true
  bound : s.ip ≤ s.len
  headed : header <+: s.out
  ascii : s.out.all asciiChar = true
  fits : statusFits s

/-! ### Lines -/

/-- The line an instruction prints (R97); the offset plays no part in it. -/
def lineOf (i : Instr) : Text :=
  match render 0 (recordOf i.form) with
  | .ok line => line
  | .error _ => []

/-- The header and one line per instruction (R204). -/
def listing (is : List Instr) : Text := header ++ is.flatMap lineOf

/-- The bytes of a sequence of instructions. -/
def assemble (is : List Instr) : List Byte := is.flatMap encode

/-- The state after an instruction with two operands has printed its line (R97, R100): nothing but `out` and `ip` differs. -/
def printed (s : State) (mn dst src : Text) (len : Nat) : State :=
  { s with out := s.out ++ (mn ++ [' '] ++ dst ++ [',', ' '] ++ src ++ ['\n']), ip := s.ip + len }

/-- The state after a jump has printed its line: nothing but `out` and `ip` differs. -/
def printedJump (s : State) (mn target : Text) : State :=
  { s with out := s.out ++ (mn ++ [' '] ++ target ++ ['\n']), ip := s.ip + 2 }

/-- An operand text with the size prefix R95 asks for: before the immediate, when the destination is memory. -/
def sized (rm : Rm) (w : Width) (t : Text) : Text :=
  match rm, w with
  | .reg _, _ => t
  | _, .byte => ['b', 'y', 't', 'e', ' '] ++ t
  | _, .word => ['w', 'o', 'r', 'd', ' '] ++ t

/-! ### The grammar of R68 -/

def nonzeroDigits : List Char := ['1', '2', '3', '4', '5', '6', '7', '8', '9']

def digits : List Char := '0' :: nonzeroDigits

/-- natural = "0" | nonzero-digit digit* -/
def IsNatural (t : Text) : Prop := t = ['0'] ∨ ∃ c cs, t = c :: cs ∧ c ∈ nonzeroDigits ∧ ∀ x ∈ cs, x ∈ digits

/-- immediate = [ "-" ] natural -/
def IsImmediate (t : Text) : Prop := IsNatural t ∨ ∃ n, IsNatural n ∧ t = '-' :: n

def registerNames : List Text :=
  [['a', 'l'], ['c', 'l'], ['d', 'l'], ['b', 'l'], ['a', 'h'], ['c', 'h'], ['d', 'h'], ['b', 'h'],
   ['a', 'x'], ['c', 'x'], ['d', 'x'], ['b', 'x'], ['s', 'p'], ['b', 'p'], ['s', 'i'], ['d', 'i']]

def IsRegister (t : Text) : Prop := t ∈ registerNames

def baseNames : List Text :=
  [['b', 'x', ' ', '+', ' ', 's', 'i'], ['b', 'x', ' ', '+', ' ', 'd', 'i'],
   ['b', 'p', ' ', '+', ' ', 's', 'i'], ['b', 'p', ' ', '+', ' ', 'd', 'i'],
   ['s', 'i'], ['d', 'i'], ['b', 'p'], ['b', 'x']]

/-- memory = "[" base "]" | "[" base " + " natural "]" | "[" base " - " natural "]" | "[" natural "]" -/
def IsMemory (t : Text) : Prop :=
  (∃ b ∈ baseNames, t = ['['] ++ b ++ [']'] ∨
    ∃ n, IsNatural n ∧ (t = ['['] ++ b ++ [' ', '+', ' '] ++ n ++ [']'] ∨ t = ['['] ++ b ++ [' ', '-', ' '] ++ n ++ [']'])) ∨
  ∃ n, IsNatural n ∧ t = ['['] ++ n ++ [']']

/-- sized-imm = ( "byte " | "word " ) immediate -/
def IsSizedImm (t : Text) : Prop := ∃ n, IsImmediate n ∧ (t = ['b', 'y', 't', 'e', ' '] ++ n ∨ t = ['w', 'o', 'r', 'd', ' '] ++ n)

/-- target = "$+2+" natural | "$+2-" natural | "$+0" -/
def IsTarget (t : Text) : Prop :=
  t = ['$', '+', '0'] ∨ ∃ n, IsNatural n ∧ (t = ['$', '+', '2', '+'] ++ n ∨ t = ['$', '+', '2', '-'] ++ n)

/-- The nine mnemonics of `mov` and the arithmetic/logic group. -/
def dataMnemonics : List Text :=
  [['m', 'o', 'v'], ['a', 'd', 'd'], ['o', 'r'], ['a', 'd', 'c'], ['s', 'b', 'b'], ['a', 'n', 'd'], ['s', 'u', 'b'],
   ['x', 'o', 'r'], ['c', 'm', 'p']]

/-- The twenty mnemonics of the jumps and loops. -/
def jumpMnemonics : List Text :=
  [['j', 'o'], ['j', 'n', 'o'], ['j', 'b'], ['j', 'n', 'b'], ['j', 'e'], ['j', 'n', 'e'], ['j', 'b', 'e'], ['j', 'a'],
   ['j', 's'], ['j', 'n', 's'], ['j', 'p'], ['j', 'n', 'p'], ['j', 'l'], ['j', 'n', 'l'], ['j', 'l', 'e'], ['j', 'g'],
   ['l', 'o', 'o', 'p', 'n', 'z'], ['l', 'o', 'o', 'p', 'z'], ['l', 'o', 'o', 'p'], ['j', 'c', 'x', 'z']]

/-- One line, with R68's remarks: a destination is never an immediate, and a target stands alone, after a jump's mnemonic. -/
def IsLine (t : Text) : Prop :=
  (∃ mn ∈ dataMnemonics, ∃ dst src, (IsRegister dst ∨ IsMemory dst) ∧
    (IsRegister src ∨ IsMemory src ∨ IsImmediate src ∨ IsSizedImm src) ∧
    t = mn ++ [' '] ++ dst ++ [',', ' '] ++ src ++ ['\n']) ∨
  ∃ mn ∈ jumpMnemonics, ∃ dst, IsTarget dst ∧ t = mn ++ [' '] ++ dst ++ ['\n']

/-! ### The caller -/

/-- The value a sequence of decimal digits stands for. -/
def digitsValue (t : Text) : Nat := t.foldl (fun n c => 10 * n + (c.toNat - 48)) 0

/-- The caller's duty about the length (R203, 92 D3): `N` is at most `MAX_LEN` where there is one. -/
def fitsMaxLen (bound : Option Nat) (n : Nat) : Prop :=
  match bound with
  | none => True
  | some m => n ≤ m

/-- What the caller gets once the run is over (R205): the status, the output and how far decoding got. -/
def hostReport (s : State) : Option (Status × Text × Nat) :=
  match s.status with
  | .running => none
  | .done => some (s.status, s.out, s.ip)
  | .fault _ => some (s.status, s.out, s.ip)

/-- The text a caller takes under an error-output policy (R189): under `discarded` it drops the output of a faulted run; the block
itself never clears `out`. -/
def deliveredText (policy : ErrorOutputPolicy) (s : State) : Option Text :=
  match s.status, policy with
  | .running, _ => none
  | .done, _ => some s.out
  | .fault _, .flagged => some s.out
  | .fault _, .discarded => none

end Sys2Proof.Machine
end

