-- ==== Sys2Proof/Certificates/Slice0/Obligations.lean ====
section
/-! DEFINITION. The statements about the model, for the provers. Each docstring names the rule of the spec. -/

open Sys2Proof Sys2Proof.Machine

/-! ### Start values, tables, numbers and reads -/

/-- For every byte list: the start state has ip 0, out the header, status running, N the length of the list, every offset below N reads the byte handed over, and State.reset is the start state of the empty stream. The header is the nine bytes 62 69 74 73 20 31 36 0A 0A. Rests on decision D13 of the spec; that a newline is the byte 0A and a character one ASCII byte is its decision D16 and addition G9 (log entries 10 and 12); that State.reset holds the empty stream is the model's choice (log entry 3). -/
def Obligations.StartOfRunHasStartValues : Prop :=
  (∀ bs : List Byte,
    (State.start bs).ip = 0 ∧ (State.start bs).out = header ∧ (State.start bs).status = .running ∧
    (State.start bs).len = bs.length ∧ ∀ k, k < bs.length → (State.start bs).mem.get k = bs.getD k 0#8) ∧
  State.reset = State.start [] ∧
  header.map Char.toNat = [0x62, 0x69, 0x74, 0x73, 0x20, 0x31, 0x36, 0x0A, 0x0A]

/-- regname is reg8 at w = 0 and reg16 at w = 1, for each of the eight codes, and every name is two lower-case ASCII letters. -/
def Obligations.RegisterNameTableIsTotal : Prop :=
  ∀ c : BitVec 3,
    regname .byte c = reg8 c ∧ regname .word c = reg16 c ∧
    ∀ w, (regname w c).length = 2 ∧ ∀ x ∈ regname w c, 97 ≤ x.toNat ∧ x.toNat ≤ 122

/-- The eight entries of reg8, reg16, eabase and alu, the sixteen of jcc and the four of loopn, in code order, and acc(w) = regname(w, 0). Twelve register entries, six base entries and the list order are the spec's own additions (G2, G3, G4, D7; log entry 12). -/
def Obligations.NameTablesHaveTheirEntries : Prop :=
  ([0, 1, 2, 3, 4, 5, 6, 7].map reg8 =
    [['a', 'l'], ['c', 'l'], ['d', 'l'], ['b', 'l'], ['a', 'h'], ['c', 'h'], ['d', 'h'], ['b', 'h']]) ∧
  ([0, 1, 2, 3, 4, 5, 6, 7].map reg16 =
    [['a', 'x'], ['c', 'x'], ['d', 'x'], ['b', 'x'], ['s', 'p'], ['b', 'p'], ['s', 'i'], ['d', 'i']]) ∧
  ([0, 1, 2, 3, 4, 5, 6, 7].map eabase = baseNames) ∧
  ([0, 1, 2, 3, 4, 5, 6, 7].map alu = dataMnemonics.tail) ∧
  ([0, 1, 2, 3, 4, 5, 6, 7, 8, 9, 10, 11, 12, 13, 14, 15].map jcc = jumpMnemonics.take 16) ∧
  ([0, 1, 2, 3].map loopn = jumpMnemonics.drop 16) ∧
  acc .byte = ['a', 'l'] ∧ acc .word = ['a', 'x'] ∧ ∀ w, acc w = regname w 0

/-- MemRead(addr, n), n = 1 or 2, raises TruncatedInstruction(ip) exactly when addr + n > N; else it returns S[addr], or S[addr+1] * 256 + S[addr]. The opcode read never raises when ip < N, and the instruction fetched depends on the stream through MemRead alone. -/
def Obligations.MemReadChecksTheBound : Prop :=
  (∀ (s : State) (a : Nat),
    (s.len < a + 1 → memRead1 s a = .error (.truncatedInstruction s.ip)) ∧
    (a + 1 ≤ s.len → memRead1 s a = .ok (s.mem.get a)) ∧
    (s.len < a + 2 → memRead2 s a = .error (.truncatedInstruction s.ip)) ∧
    (a + 2 ≤ s.len → ∃ v, memRead2 s a = .ok v ∧ v.toNat = (s.mem.get (a + 1)).toNat * 256 + (s.mem.get a).toNat)) ∧
  (∀ s : State, s.ip < s.len → ∃ b, memRead1 s s.ip = .ok b) ∧
  (∀ s t : State, s.ip = t.ip → (∀ a, memRead1 s a = memRead1 t a) → fetch s = fetch t)

/-- signed_8 and signed_16 are the two's-complement values; zext_16 keeps the unsigned value; sext_16 keeps the signed value and its bits 15 to 8 are copies of bit 7. -/
def Obligations.NumberReadings : Prop :=
  (∀ b : Byte, signed8 b = b.toInt ∧ (zext16 b).toNat = b.toNat ∧ signed16 (zext16 b) = b.toNat ∧
    signed16 (sext16 b) = signed8 b ∧
    (∀ k, k < 8 → (sext16 b).getLsbD k = b.getLsbD k) ∧ ∀ k, 8 ≤ k → k < 16 → (sext16 b).getLsbD k = b.getLsbD 7) ∧
  ∀ v : Word, signed16 v = v.toInt ∧ -32768 ≤ signed16 v ∧ signed16 v ≤ 32767

/-- For every natural number n, the digits of dec(n) stand for n and match the grammar's natural (no leading zero, 0 for zero); for z < 0, dec(z) is a minus sign before dec(|z|), else dec(|z|). Decimal formatting is the spec's decision D17. -/
def Obligations.DecimalTextIsTheNumber : Prop :=
  (∀ n : Nat, digitsValue (decNat n) = n ∧ IsNatural (decNat n)) ∧
  ∀ z : Int, (0 ≤ z → dec z = decNat z.natAbs) ∧ (z < 0 → dec z = '-' :: decNat z.natAbs)

/-! ### Operand texts and the renderer -/

/-- With mod = 11 the operand is regname(w, rm), no byte is consumed and the resolver is not called; else the operand is the resolver's and its text is the same at both widths. -/
def Obligations.RegisterOrMemoryOperandText : Prop :=
  (∀ (rm : BitVec 3) (bs : List Byte), resolveRm 0b11#2 rm bs = .ok (.reg rm, bs)) ∧
  (∀ (mod : BitVec 2) (rm : BitVec 3) (bs : List Byte), mod ≠ 0b11#2 → resolveRm mod rm bs = resolveEa mod rm bs) ∧
  (∀ (w : Width) (c : BitVec 3), rmText w (.reg c) = regname w c ∧ (Rm.reg c).dispLen = 0) ∧
  (∀ rm : Rm, isMemory rm = true → rmText .byte rm = rmText .word rm)

/-- A direct address is its unsigned decimal in brackets (decision D8); a base without displacement or with displacement 0 is the base in brackets; a positive displacement is base + dec, a negative one base - magnitude. -/
def Obligations.EffectiveAddressText : Prop :=
  (∀ (w : Width) (a : Word), rmText w (.direct a) = '[' :: decNat a.toNat ++ [']']) ∧
  (∀ (w : Width) (r : BitVec 3), rmText w (.base r) = '[' :: eabase r ++ [']']) ∧
  (∀ (w : Width) (r : BitVec 3) (d : Byte),
    (signed8 d = 0 → rmText w (.disp8 r d) = '[' :: eabase r ++ [']']) ∧
    (0 < signed8 d → rmText w (.disp8 r d) = '[' :: eabase r ++ [' ', '+', ' '] ++ decNat (signed8 d).natAbs ++ [']']) ∧
    (signed8 d < 0 → rmText w (.disp8 r d) = '[' :: eabase r ++ [' ', '-', ' '] ++ decNat (signed8 d).natAbs ++ [']'])) ∧
  (∀ (w : Width) (r : BitVec 3) (d : Word),
    (signed16 d = 0 → rmText w (.disp16 r d) = '[' :: eabase r ++ [']']) ∧
    (0 < signed16 d → rmText w (.disp16 r d) = '[' :: eabase r ++ [' ', '+', ' '] ++ decNat (signed16 d).natAbs ++ [']']) ∧
    (signed16 d < 0 → rmText w (.disp16 r d) = '[' :: eabase r ++ [' ', '-', ' '] ++ decNat (signed16 d).natAbs ++ [']']))

/-- w = 0 consumes one byte and prints it unsigned whatever s is; w = 1, s = 1 consumes one byte and prints it sign-extended; w = 1, s = 0 consumes two bytes, little-endian, and prints the signed word. A byte that is missing is a truncation. -/
def Obligations.ImmediateText : Prop :=
  (∀ (s : Bool) (b : Byte) (bs : List Byte),
    resolveImm s .byte (b :: bs) = .ok (.byte s b, bs) ∧ immText (.byte s b) = decNat b.toNat) ∧
  (∀ (b : Byte) (bs : List Byte),
    resolveImm true .word (b :: bs) = .ok (.sext b, bs) ∧ immText (.sext b) = dec (signed8 b)) ∧
  (∀ (lo hi : Byte) (bs : List Byte),
    resolveImm false .word (lo :: hi :: bs) = .ok (.word (wordOfBytes lo hi), bs) ∧
    (wordOfBytes lo hi).toNat = hi.toNat * 256 + lo.toNat ∧
    immText (.word (wordOfBytes lo hi)) = dec (signed16 (wordOfBytes lo hi))) ∧
  (∀ (s : Bool) (w : Width), resolveImm s w [] = .error .truncated) ∧
  ∀ b : Byte, resolveImm false .word [b] = .error .truncated

/-- A positive displacement prints $+2+n, a negative one $+2-n with its magnitude, and the byte 0 prints $+0. -/
def Obligations.JumpTargetText : Prop :=
  ∀ r : Byte,
    (0 < signed8 r → targetText r = ['$', '+', '2', '+'] ++ decNat (signed8 r).natAbs) ∧
    (signed8 r < 0 → targetText r = ['$', '+', '2', '-'] ++ decNat (signed8 r).natAbs) ∧
    (signed8 r = 0 → targetText r = ['$', '+', '0'])

/-- render raises MalformedInstruction(ip) for a source without a destination; else it gives mnemonic, space and destination if there is one, comma space and source if there is one, newline. No shape procedure gives an empty destination. -/
def Obligations.RendererMakesOneLine : Prop :=
  (∀ (ip : Nat) (d : Decoded),
    (d.src ≠ [] → d.dst = [] → render ip d = .error (.malformedInstruction ip)) ∧
    (d.src = [] → d.dst = [] → render ip d = .ok (d.mn ++ ['\n'])) ∧
    (d.src = [] → d.dst ≠ [] → render ip d = .ok (d.mn ++ [' '] ++ d.dst ++ ['\n'])) ∧
    (d.src ≠ [] → d.dst ≠ [] → render ip d = .ok (d.mn ++ [' '] ++ d.dst ++ [',', ' '] ++ d.src ++ ['\n']))) ∧
  ∀ f : Form, (recordOf f).dst ≠ []

/-! ### Decoding and encoding -/

/-- One worked example of every encoding decodes to its instruction, and 06, C4, C6 08, 90 and a lone 89 are refused under their names. The refusals of 06, C4 and C6 08 are decisions D4, D5 and D6 of the spec (log entry 7); the fixed opcode bits of every word but the moves 89 and 8B, and the direction sense of A1 and A3, are its additions G1 and G5 (log entry 12). -/
def Obligations.SampleEncodingsDecode : Prop :=
  decode [0x89, 0xD9] = .ok (.movRmReg .word (.reg 1) 3, []) ∧
  decode [0x8B, 0x41, 0xDB] = .ok (.movRegRm .word (.disp8 1 0xDB) 0, []) ∧
  decode [0xC7, 0x85, 0x85, 0x03, 0x5B, 0x01] = .ok (.movRmImm (.disp16 5 901) (.word 347), []) ∧
  decode [0xB1, 0x0C] = .ok (.movRegImm 1 (.byte false 12), []) ∧
  decode [0xA1, 0xFB, 0x09] = .ok (.movAccMem .word 2555, []) ∧
  decode [0xA3, 0x0F, 0x00] = .ok (.movMemAcc .word 15, []) ∧
  decode [0x11, 0x82, 0xE8, 0x03] = .ok (.adcRmReg .word (.disp16 2 1000) 0, []) ∧
  decode [0x3A, 0x66, 0xFE] = .ok (.cmpRegRm .byte (.disp8 6 0xFE) 4, []) ∧
  decode [0x05, 0xE8, 0x03] = .ok (.addAccImm (.word 1000), []) ∧
  decode [0x83, 0x3E, 0xE2, 0x12, 0x1D] = .ok (.cmpRmImm (.direct 4834) (.sext 29), []) ∧
  decode [0x75, 0xFE] = .ok (.jne 0xFE, []) ∧
  decode [0xE2, 0xFA] = .ok (.loop 0xFA, []) ∧
  decode [0x06] = .error (.unsupportedOpcode 0x06) ∧
  decode [0xC4, 0x06] = .error (.unsupportedOpcode 0xC4) ∧
  decode [0xC6, 0x08] = .error (.unsupportedOpcode 0xC6) ∧
  decode [0x90] = .error (.unsupportedOpcode 0x90) ∧
  decode [0x89] = .error .truncated

/-- For every opcode byte b0: the primary opcode is b0 / 4; d (s in the immediate shapes) is bit 1, w bit 0, the w of the short move bit 3; the register of the short move is b0 mod 8, the sub-opcode b0 / 8 mod 8, the jump selector b0 mod 16, the loop selector b0 mod 4. For every second byte b1: mod = b1 / 64, reg = b1 / 8 mod 8, rm = b1 mod 8, and the three fields make up the byte. The places of the short move's fields, of the sub-opcode, of the two selectors and of s are the spec's addition G1 (log entry 12). -/
def Obligations.FieldsOfTheTwoBytes : Prop :=
  (∀ b0 : Byte,
    (op6Field b0).toNat = b0.toNat / 4 ∧ dsField b0 = decide (b0.toNat / 2 % 2 = 1) ∧
    (wField b0).bit = decide (b0.toNat % 2 = 1) ∧ (wShortField b0).bit = decide (b0.toNat / 8 % 2 = 1) ∧
    (regShortField b0).toNat = b0.toNat % 8 ∧ (aopField b0).toNat = b0.toNat / 8 % 8 ∧
    (ccField b0).toNat = b0.toNat % 16 ∧ (lpField b0).toNat = b0.toNat % 4) ∧
  ∀ b1 : Byte,
    (modField b1).toNat = b1.toNat / 64 ∧ (regField b1).toNat = b1.toNat / 8 % 8 ∧ (rmField b1).toNat = b1.toNat % 8 ∧
    modRegRm (modField b1) (regField b1) (rmField b1) = b1

/-- For every well-formed instruction (all 58 constructors, every operand value) and every following bytes, decode (encode i ++ rest) answers i and leaves exactly rest. -/
def Obligations.DecodeOfEncode : Prop :=
  ∀ (i : Instr) (rest : List Byte), i.wellFormed = true → decode (encode i ++ rest) = .ok (i, rest)

/-- If the decoder reads i from a window and leaves rest, then i is well formed and the window is encode i followed by rest. So no byte of an accepted encoding is dropped. -/
def Obligations.EncodeOfDecode : Prop :=
  ∀ (bs : List Byte) (i : Instr) (rest : List Byte), decode bs = .ok (i, rest) → i.wellFormed = true ∧ bs = encode i ++ rest

/-- For every decoded instruction: its length is 2 + dlen, 1 + ilen, 2 + dlen + ilen, 3 or 2 by its shape, with mod, rm, s and w from the first two bytes; it is between 2 and 6; and exactly that many bytes are consumed. dlen and ilen have the values of the rule, and lengths 2 and 6 occur. -/
def Obligations.LengthFollowsTheFirstTwoBytes : Prop :=
  (∀ (b0 b1 : Byte) (bs : List Byte) (i : Instr) (rest : List Byte), decode (b0 :: b1 :: bs) = .ok (i, rest) →
    i.len = (match classify b0 with
      | .rmReg _ _ _ => 2 + dlen (modField b1) (rmField b1)
      | .immAcc _ s w => 1 + ilen s w
      | .aluImmRm s w => 2 + dlen (modField b1) (rmField b1) + ilen s w
      | .movImmRm w => 2 + dlen (modField b1) (rmField b1) + ilen false w
      | .immReg w _ => 1 + ilen false w
      | .memAcc _ _ => 3
      | .jump _ => 2
      | .loop _ => 2
      | .unsupported => 0) ∧
    2 ≤ i.len ∧ i.len ≤ 6 ∧ rest.length + i.len = bs.length + 2) ∧
  (∀ rm : BitVec 3, dlen 0 rm = (if rm = 6#3 then 2 else 0) ∧ dlen 1 rm = 1 ∧ dlen 2 rm = 2 ∧ dlen 3 rm = 0) ∧
  (∀ s : Bool, ilen s .byte = 1) ∧ ilen true .word = 1 ∧ ilen false .word = 2 ∧
  (∃ i : Instr, i.wellFormed = true ∧ i.len = 2) ∧ ∃ i : Instr, i.wellFormed = true ∧ i.len = 6

/-- A byte is unsupported exactly when it lies in one of the ranges the spec lists; 158 of the 256 bytes do. Of these, the sixteen bytes 00aaa11w and C4 and C5 are refused by decisions D4 and D5 of the spec (log entry 7). The fixed opcode bits but 100010 are the spec's additions (G1; log entry 12). -/
def Obligations.OpcodeMapCounts : Prop :=
  (∀ b : Byte, classify b = .unsupported ↔
    (b.toNat < 0x40 ∧ b.toNat % 8 ≥ 6) ∨ (0x40 ≤ b.toNat ∧ b.toNat ≤ 0x6F) ∨ (0x84 ≤ b.toNat ∧ b.toNat ≤ 0x87) ∨
    (0x8C ≤ b.toNat ∧ b.toNat ≤ 0x9F) ∨ (0xA4 ≤ b.toNat ∧ b.toNat ≤ 0xAF) ∨ (0xC0 ≤ b.toNat ∧ b.toNat ≤ 0xC5) ∨
    (0xC8 ≤ b.toNat ∧ b.toNat ≤ 0xDF) ∨ 0xE4 ≤ b.toNat) ∧
  ((List.range 256).filter fun n => classify (BitVec.ofNat 8 n) = .unsupported).length = 158

/-- For every pair of bytes: if the decoder answers an instruction, then exactly one row of the 58 matches b0 * 256 + b1 under its mask, and it is the row with the instruction's mnemonic and operand form; the decoder refuses with UnsupportedOpcode(b0) exactly when no row matches. The table has 58 rows. -/
def Obligations.TableSelectsTheDecodedRow : Prop :=
  (∀ (b0 b1 : Byte) (bs : List Byte),
    (∀ (i : Instr) (rest : List Byte), decode (b0 :: b1 :: bs) = .ok (i, rest) →
      ∃ row, opcodeTable.filter (fun r => r.selects b0 b1) = [row] ∧
        row.mnemonic = (recordOf i.form).mn ∧ row.operands = operandForm i.form) ∧
    (decode (b0 :: b1 :: bs) = .error (.unsupportedOpcode b0) ↔ opcodeTable.filter (fun r => r.selects b0 b1) = [])) ∧
  opcodeTable.length = 58

/-- Under the alternative reading the bytes 00aaa11w are immediate-to-accumulator with the sign-extend flag 1 and one immediate byte, and C4 to C7 are mov immediate whatever bit 1 and the reg field; on this hardware 00aaa11w, C4, C5, and C6, C7 with reg not 000 are refused with UnsupportedOpcode whatever follows; and whatever this hardware decodes the alternative decodes to the same. That this hardware is the strict one is decision D4 to D6 (log entry 7). -/
def Obligations.AlternativeReadingOfTheOpcode : Prop :=
  (∀ (op : AluOp) (b1 : Byte) (rest : List Byte),
    decodeWith false (opByte (0b00#2 ++ op.code ++ 0b1#1) true false :: b1 :: rest) =
      .ok ((Form.immAcc op (.byte true b1)).toInstr, rest) ∧
    decodeWith false (opByte (0b00#2 ++ op.code ++ 0b1#1) true true :: b1 :: rest) =
      .ok ((Form.immAcc op (.sext b1)).toInstr, rest)) ∧
  (∀ (x : Bool) (reg : BitVec 3) (rm : Rm) (imm : Imm) (rest : List Byte),
    rm.wellFormed = true → imm.unextended = true →
    decodeWith false (opByte 0b110001#6 x imm.width.bit :: modRegRm rm.modBits reg rm.rmBits ::
      (rm.dispBytes ++ (imm.bytes ++ rest))) = .ok (.movRmImm rm imm, rest)) ∧
  (∀ (op : AluOp) (w : Bool) (bs : List Byte), decode (opByte (0b00#2 ++ op.code ++ 0b1#1) true w :: bs) =
      .error (.unsupportedOpcode (opByte (0b00#2 ++ op.code ++ 0b1#1) true w))) ∧
  (∀ (w : Bool) (bs : List Byte), decode (opByte 0b110001#6 false w :: bs) =
      .error (.unsupportedOpcode (opByte 0b110001#6 false w))) ∧
  (∀ (w : Bool) (b1 : Byte) (bs : List Byte), regField b1 ≠ 0b000#3 → decode (opByte 0b110001#6 true w :: b1 :: bs) =
      .error (.unsupportedOpcode (opByte 0b110001#6 true w))) ∧
  ∀ (bs : List Byte) (p : Instr × List Byte), decode bs = .ok p → decodeWith false bs = .ok p

/-- Register to register with d = 0 and d = 1 and the operands swapped; a zero displacement and no displacement; an 8-bit displacement and its 16-bit extension; 80 and 82; 83 with v and 81 with sext_16(v); mov immediate to a register in both forms; arithmetic immediate to the accumulator in both forms; accumulator moves and mov with a direct address. Each pair has the same line (lengths may differ). -/
def Obligations.RedundantEncodingsPrintTheSame : Prop :=
  (∀ (w : Width) (a b : BitVec 3), lineOf (.movRmReg w (.reg a) b) = lineOf (.movRegRm w (.reg b) a) ∧
    ∀ op : AluOp, lineOf (Form.rmReg (.alu op) false w (.reg a) b).toInstr = lineOf (Form.rmReg (.alu op) true w (.reg b) a).toInstr) ∧
  (∀ (w : Width) (r : BitVec 3), rmText w (.disp8 r 0) = rmText w (.base r) ∧ rmText w (.disp16 r 0) = rmText w (.base r)) ∧
  (∀ (w : Width) (r : BitVec 3) (d : Byte), rmText w (.disp16 r (sext16 d)) = rmText w (.disp8 r d)) ∧
  (∀ (op : AluOp) (rm : Rm) (b : Byte),
    lineOf (Form.immRm (.alu op) rm (.byte true b)).toInstr = lineOf (Form.immRm (.alu op) rm (.byte false b)).toInstr ∧
    lineOf (Form.immRm (.alu op) rm (.sext b)).toInstr = lineOf (Form.immRm (.alu op) rm (.word (sext16 b))).toInstr) ∧
  (∀ (c : BitVec 3) (imm : Imm), lineOf (.movRmImm (.reg c) imm) = lineOf (.movRegImm c imm)) ∧
  (∀ (op : AluOp) (imm : Imm),
    lineOf (Form.immRm (.alu op) (.reg 0) imm).toInstr = lineOf (Form.immAcc op imm).toInstr) ∧
  ∀ (w : Width) (a : Word), lineOf (.movAccMem w a) = lineOf (.movRegRm w (.direct a) 0) ∧
    lineOf (.movMemAcc w a) = lineOf (.movRmReg w (.direct a) 0)

/-! ### What each instruction does: it completes whenever it fits into the rest of the stream -/

/-- Constructors movRmReg, movRegRm: for every width, operand and register, in every state where the instruction fits into the rest of the stream, exec answers the state with the line `mov dst, src` appended and ip advanced; nothing else changes. -/
def Obligations.MovRegisterFormsComplete : Prop :=
  ∀ (w : Width) (rm : Rm) (reg : BitVec 3) (s : State), s.ip + (2 + rm.dispLen) ≤ s.len →
    exec (.movRmReg w rm reg) s = .next (printed s ['m', 'o', 'v'] (rmText w rm) (regname w reg) (2 + rm.dispLen)) ∧
    exec (.movRegRm w rm reg) s = .next (printed s ['m', 'o', 'v'] (regname w reg) (rmText w rm) (2 + rm.dispLen))

/-- Constructors movRmImm, movRegImm: for every operand and immediate, in every state where the instruction fits, exec answers the state with the line appended and ip advanced; nothing else changes. -/
def Obligations.MovImmediateFormsComplete : Prop :=
  (∀ (rm : Rm) (imm : Imm) (s : State), s.ip + (2 + rm.dispLen + imm.len) ≤ s.len →
    exec (.movRmImm rm imm) s = .next (printed s ['m', 'o', 'v'] (rmText imm.width rm) (sized rm imm.width (immText imm))
      (2 + rm.dispLen + imm.len))) ∧
  ∀ (reg : BitVec 3) (imm : Imm) (s : State), s.ip + (1 + imm.len) ≤ s.len →
    exec (.movRegImm reg imm) s = .next (printed s ['m', 'o', 'v'] (regname imm.width reg) (immText imm) (1 + imm.len))

/-- Constructors movAccMem, movMemAcc: for every width and address, in every state with 3 bytes left, exec answers the state with `mov acc, [addr]` or `mov [addr], acc` appended, the address unsigned, and ip advanced by 3. The sense of the direction bit is the spec's addition G5 (log entry 12), the unsigned address its decision D8 (log entry 8). -/
def Obligations.MovAccumulatorFormsComplete : Prop :=
  ∀ (w : Width) (addr : Word) (s : State), s.ip + 3 ≤ s.len →
    exec (.movAccMem w addr) s = .next (printed s ['m', 'o', 'v'] (acc w) ('[' :: decNat addr.toNat ++ [']']) 3) ∧
    exec (.movMemAcc w addr) s = .next (printed s ['m', 'o', 'v'] ('[' :: decNat addr.toNat ++ [']']) (acc w) 3)

/-- Constructors addRmReg, orRmReg, adcRmReg, sbbRmReg, andRmReg, subRmReg, xorRmReg, cmpRmReg: in every state where the instruction fits, exec answers the state with the line `op r/m, reg` appended and ip advanced; nothing else changes. -/
def Obligations.AluRegisterToRmComplete : Prop :=
  ∀ (w : Width) (rm : Rm) (reg : BitVec 3) (s : State), s.ip + (2 + rm.dispLen) ≤ s.len →
    exec (.addRmReg w rm reg) s = .next (printed s ['a', 'd', 'd'] (rmText w rm) (regname w reg) (2 + rm.dispLen)) ∧
    exec (.orRmReg w rm reg) s = .next (printed s ['o', 'r'] (rmText w rm) (regname w reg) (2 + rm.dispLen)) ∧
    exec (.adcRmReg w rm reg) s = .next (printed s ['a', 'd', 'c'] (rmText w rm) (regname w reg) (2 + rm.dispLen)) ∧
    exec (.sbbRmReg w rm reg) s = .next (printed s ['s', 'b', 'b'] (rmText w rm) (regname w reg) (2 + rm.dispLen)) ∧
    exec (.andRmReg w rm reg) s = .next (printed s ['a', 'n', 'd'] (rmText w rm) (regname w reg) (2 + rm.dispLen)) ∧
    exec (.subRmReg w rm reg) s = .next (printed s ['s', 'u', 'b'] (rmText w rm) (regname w reg) (2 + rm.dispLen)) ∧
    exec (.xorRmReg w rm reg) s = .next (printed s ['x', 'o', 'r'] (rmText w rm) (regname w reg) (2 + rm.dispLen)) ∧
    exec (.cmpRmReg w rm reg) s = .next (printed s ['c', 'm', 'p'] (rmText w rm) (regname w reg) (2 + rm.dispLen))

/-- Constructors addRegRm, orRegRm, adcRegRm, sbbRegRm, andRegRm, subRegRm, xorRegRm, cmpRegRm: in every state where the instruction fits, exec answers the state with the line `op reg, r/m` appended and ip advanced; nothing else changes. -/
def Obligations.AluRmToRegisterComplete : Prop :=
  ∀ (w : Width) (rm : Rm) (reg : BitVec 3) (s : State), s.ip + (2 + rm.dispLen) ≤ s.len →
    exec (.addRegRm w rm reg) s = .next (printed s ['a', 'd', 'd'] (regname w reg) (rmText w rm) (2 + rm.dispLen)) ∧
    exec (.orRegRm w rm reg) s = .next (printed s ['o', 'r'] (regname w reg) (rmText w rm) (2 + rm.dispLen)) ∧
    exec (.adcRegRm w rm reg) s = .next (printed s ['a', 'd', 'c'] (regname w reg) (rmText w rm) (2 + rm.dispLen)) ∧
    exec (.sbbRegRm w rm reg) s = .next (printed s ['s', 'b', 'b'] (regname w reg) (rmText w rm) (2 + rm.dispLen)) ∧
    exec (.andRegRm w rm reg) s = .next (printed s ['a', 'n', 'd'] (regname w reg) (rmText w rm) (2 + rm.dispLen)) ∧
    exec (.subRegRm w rm reg) s = .next (printed s ['s', 'u', 'b'] (regname w reg) (rmText w rm) (2 + rm.dispLen)) ∧
    exec (.xorRegRm w rm reg) s = .next (printed s ['x', 'o', 'r'] (regname w reg) (rmText w rm) (2 + rm.dispLen)) ∧
    exec (.cmpRegRm w rm reg) s = .next (printed s ['c', 'm', 'p'] (regname w reg) (rmText w rm) (2 + rm.dispLen))

/-- Constructors addAccImm, orAccImm, adcAccImm, sbbAccImm, andAccImm, subAccImm, xorAccImm, cmpAccImm: in every state where the instruction fits, exec answers the state with the line `op acc, imm` appended and ip advanced; nothing else changes. -/
def Obligations.AluImmediateToAccumulatorComplete : Prop :=
  ∀ (imm : Imm) (s : State), s.ip + (1 + imm.len) ≤ s.len →
    exec (.addAccImm imm) s = .next (printed s ['a', 'd', 'd'] (acc imm.width) (immText imm) (1 + imm.len)) ∧
    exec (.orAccImm imm) s = .next (printed s ['o', 'r'] (acc imm.width) (immText imm) (1 + imm.len)) ∧
    exec (.adcAccImm imm) s = .next (printed s ['a', 'd', 'c'] (acc imm.width) (immText imm) (1 + imm.len)) ∧
    exec (.sbbAccImm imm) s = .next (printed s ['s', 'b', 'b'] (acc imm.width) (immText imm) (1 + imm.len)) ∧
    exec (.andAccImm imm) s = .next (printed s ['a', 'n', 'd'] (acc imm.width) (immText imm) (1 + imm.len)) ∧
    exec (.subAccImm imm) s = .next (printed s ['s', 'u', 'b'] (acc imm.width) (immText imm) (1 + imm.len)) ∧
    exec (.xorAccImm imm) s = .next (printed s ['x', 'o', 'r'] (acc imm.width) (immText imm) (1 + imm.len)) ∧
    exec (.cmpAccImm imm) s = .next (printed s ['c', 'm', 'p'] (acc imm.width) (immText imm) (1 + imm.len))

/-- Constructors addRmImm, orRmImm, adcRmImm, sbbRmImm, andRmImm, subRmImm, xorRmImm, cmpRmImm: in every state where the instruction fits, exec answers the state with the line `op r/m, imm` appended, the immediate sized byte or word when the destination is memory, and ip advanced; nothing else changes. -/
def Obligations.AluImmediateToRmComplete : Prop :=
  ∀ (rm : Rm) (imm : Imm) (s : State), s.ip + (2 + rm.dispLen + imm.len) ≤ s.len →
    exec (.addRmImm rm imm) s = .next (printed s ['a', 'd', 'd'] (rmText imm.width rm) (sized rm imm.width (immText imm)) (2 + rm.dispLen + imm.len)) ∧
    exec (.orRmImm rm imm) s = .next (printed s ['o', 'r'] (rmText imm.width rm) (sized rm imm.width (immText imm)) (2 + rm.dispLen + imm.len)) ∧
    exec (.adcRmImm rm imm) s = .next (printed s ['a', 'd', 'c'] (rmText imm.width rm) (sized rm imm.width (immText imm)) (2 + rm.dispLen + imm.len)) ∧
    exec (.sbbRmImm rm imm) s = .next (printed s ['s', 'b', 'b'] (rmText imm.width rm) (sized rm imm.width (immText imm)) (2 + rm.dispLen + imm.len)) ∧
    exec (.andRmImm rm imm) s = .next (printed s ['a', 'n', 'd'] (rmText imm.width rm) (sized rm imm.width (immText imm)) (2 + rm.dispLen + imm.len)) ∧
    exec (.subRmImm rm imm) s = .next (printed s ['s', 'u', 'b'] (rmText imm.width rm) (sized rm imm.width (immText imm)) (2 + rm.dispLen + imm.len)) ∧
    exec (.xorRmImm rm imm) s = .next (printed s ['x', 'o', 'r'] (rmText imm.width rm) (sized rm imm.width (immText imm)) (2 + rm.dispLen + imm.len)) ∧
    exec (.cmpRmImm rm imm) s = .next (printed s ['c', 'm', 'p'] (rmText imm.width rm) (sized rm imm.width (immText imm)) (2 + rm.dispLen + imm.len))

/-- Constructors jo, jno, jb, jnb, je, jne, jbe, ja, js, jns, jp, jnp, jl, jnl, jle, jg: in every state with 2 bytes left, exec answers the state with the line `mnemonic target` appended and ip advanced by 2; the jump is not followed and nothing else changes. -/
def Obligations.ConditionalJumpsComplete : Prop :=
  ∀ (rel8 : Byte) (s : State), s.ip + 2 ≤ s.len →
    exec (.jo rel8) s = .next (printedJump s ['j', 'o'] (targetText rel8)) ∧
    exec (.jno rel8) s = .next (printedJump s ['j', 'n', 'o'] (targetText rel8)) ∧
    exec (.jb rel8) s = .next (printedJump s ['j', 'b'] (targetText rel8)) ∧
    exec (.jnb rel8) s = .next (printedJump s ['j', 'n', 'b'] (targetText rel8)) ∧
    exec (.je rel8) s = .next (printedJump s ['j', 'e'] (targetText rel8)) ∧
    exec (.jne rel8) s = .next (printedJump s ['j', 'n', 'e'] (targetText rel8)) ∧
    exec (.jbe rel8) s = .next (printedJump s ['j', 'b', 'e'] (targetText rel8)) ∧
    exec (.ja rel8) s = .next (printedJump s ['j', 'a'] (targetText rel8)) ∧
    exec (.js rel8) s = .next (printedJump s ['j', 's'] (targetText rel8)) ∧
    exec (.jns rel8) s = .next (printedJump s ['j', 'n', 's'] (targetText rel8)) ∧
    exec (.jp rel8) s = .next (printedJump s ['j', 'p'] (targetText rel8)) ∧
    exec (.jnp rel8) s = .next (printedJump s ['j', 'n', 'p'] (targetText rel8)) ∧
    exec (.jl rel8) s = .next (printedJump s ['j', 'l'] (targetText rel8)) ∧
    exec (.jnl rel8) s = .next (printedJump s ['j', 'n', 'l'] (targetText rel8)) ∧
    exec (.jle rel8) s = .next (printedJump s ['j', 'l', 'e'] (targetText rel8)) ∧
    exec (.jg rel8) s = .next (printedJump s ['j', 'g'] (targetText rel8))

/-- Constructors loopnz, loopz, loop, jcxz: in every state with 2 bytes left, exec answers the state with the line `mnemonic target` appended and ip advanced by 2; the loop is not followed and nothing else changes. -/
def Obligations.LoopsComplete : Prop :=
  ∀ (rel8 : Byte) (s : State), s.ip + 2 ≤ s.len →
    exec (.loopnz rel8) s = .next (printedJump s ['l', 'o', 'o', 'p', 'n', 'z'] (targetText rel8)) ∧
    exec (.loopz rel8) s = .next (printedJump s ['l', 'o', 'o', 'p', 'z'] (targetText rel8)) ∧
    exec (.loop rel8) s = .next (printedJump s ['l', 'o', 'o', 'p'] (targetText rel8)) ∧
    exec (.jcxz rel8) s = .next (printedJump s ['j', 'c', 'x', 'z'] (targetText rel8))

/-- For every instruction and state: if ip + length > N then exec answers the state with status Fault(TruncatedInstruction(ip)) and nothing else changed; else it answers a state of the same status in which its line is appended and ip advanced by its length. That exec itself makes this check, and does not look at the status, is the model's convention (log entry 11): no instruction that does not fit is ever fetched. -/
def Obligations.InstructionThatDoesNotFitIsTruncated : Prop :=
  ∀ (i : Instr) (s : State),
    (s.len < s.ip + i.len → exec i s = .next { s with status := .fault (.truncatedInstruction s.ip) }) ∧
    (s.ip + i.len ≤ s.len → exec i s = .next { s with out := s.out ++ lineOf i, ip := s.ip + i.len })

/-- For all 58 constructors: if exec answers a next state then every offset of the stream reads as before, N is unchanged, and either the status is unchanged, out has text appended and ip is advanced by the length, or out and ip are unchanged and the status is a fault. -/
def Obligations.InstructionFrame : Prop :=
  ∀ (i : Instr) (s t : State), exec i s = .next t →
    (∀ a, t.mem.get a = s.mem.get a) ∧ t.mem = s.mem ∧ t.len = s.len ∧
    ((t.status = s.status ∧ t.ip = s.ip + i.len ∧ ∃ line, t.out = s.out ++ line) ∨
     (t.out = s.out ∧ t.ip = s.ip ∧ ∃ c, t.status = .fault c))

/-! ### From bytes to text: the forms as the family files write them -/

/-- If the status is Running, ip is not N, and the window of up to six bytes at ip decodes to i, then step answers what exec of i answers at that state; nothing is added around exec. If the bytes are refused, step raises the condition with offset ip. -/
def Obligations.StepRunsTheDecodedInstruction : Prop :=
  ∀ s : State, s.status = .running → s.ip ≠ s.len →
    (∀ (i : Instr) (rest : List Byte), decode (window s 6 s.ip) = .ok (i, rest) → step s = exec i s) ∧
    (∀ b0 : Byte, decode (window s 6 s.ip) = .error (.unsupportedOpcode b0) →
      step s = .next { s with status := .fault (.unsupportedOpcode b0 s.ip) }) ∧
    (decode (window s 6 s.ip) = .error .truncated → step s = .next { s with status := .fault (.truncatedInstruction s.ip) })

/-- In every state, reachable or not, step answers exactly the state that the pseudocode computes, where every byte is read by MemRead at an absolute offset and the resolvers make their text as they read. -/
def Obligations.StepIsTheDispatcherStep : Prop :=
  ∀ s : State, step s = .next (Pseudocode.step s)

/-- In a running state whose byte at ip is 1000100w (1000101w), step reads the second byte and the r/m operand by MemRead, prints mov with the r/m operand as destination (source) and the register as source (destination), and advances by 2 + n; a byte that is missing raises TruncatedInstruction(ip), and there is no other exception. -/
def Obligations.MovRegisterBytesPrint : Prop :=
  ∀ (s : State) (w : Bool), s.status = .running → s.ip < s.len →
    (s.mem.get s.ip = opByte 0b100010#6 false w →
      step s = .next (Pseudocode.conclude s (do
        let b1 ← memRead1 s (s.ip + 1)
        let (m, n) ← Pseudocode.rmoperand s (modField b1) (rmField b1) (Width.ofBit w) (s.ip + 2)
        return ⟨movName, m, regname (Width.ofBit w) (regField b1), 2 + n⟩))) ∧
    (s.mem.get s.ip = opByte 0b100010#6 true w →
      step s = .next (Pseudocode.conclude s (do
        let b1 ← memRead1 s (s.ip + 1)
        let (m, n) ← Pseudocode.rmoperand s (modField b1) (rmField b1) (Width.ofBit w) (s.ip + 2)
        return ⟨movName, regname (Width.ofBit w) (regField b1), m, 2 + n⟩)))

/-- In a running state whose byte at ip is 1100011w: the second byte is read, reg not 000 raises UnsupportedOpcode(b0, ip) before anything else is read (decision D6), else the operand and an immediate that is never sign-extended are read and printed, sized for memory. 1011wrrr: the immediate is read and printed with the register of b0. The fixed bits are the spec's additions G1 (log entry 12). -/
def Obligations.MovImmediateBytesPrint : Prop :=
  (∀ (s : State) (w : Bool), s.status = .running → s.ip < s.len → s.mem.get s.ip = opByte 0b110001#6 true w →
    step s = .next (Pseudocode.conclude s (do
      let b1 ← memRead1 s (s.ip + 1)
      if regField b1 ≠ 0b000#3 then throw (.unsupportedOpcode (opByte 0b110001#6 true w) s.ip)
      let (m, n) ← Pseudocode.rmoperand s (modField b1) (rmField b1) (Width.ofBit w) (s.ip + 2)
      let (i, k) ← Pseudocode.imm s false (Width.ofBit w) (s.ip + 2 + n)
      return ⟨movName, m, if modField b1 ≠ 0b11#2 then sizePrefix (Width.ofBit w) ++ i else i, 2 + n + k⟩))) ∧
  ∀ (s : State) (w : Bool) (reg : BitVec 3), s.status = .running → s.ip < s.len →
    s.mem.get s.ip = (0b1011#4 ++ BitVec.ofBool w ++ reg : BitVec (4 + 1 + 3)) →
    step s = .next (Pseudocode.conclude s (do
      let (i, k) ← Pseudocode.imm s false (Width.ofBit w) (s.ip + 1)
      return ⟨movName, regname (Width.ofBit w) reg, i, 1 + k⟩))

/-- In a running state whose byte at ip is 1010000w (1010001w), step reads the two address bytes and prints mov acc, [addr] (mov [addr], acc), 3 bytes; a missing byte raises TruncatedInstruction(ip). The address is printed unsigned, which is decision D8 of the spec (log entry 8); fixed bits and direction sense are its additions G1, G5 (log entry 12). -/
def Obligations.MovAccumulatorBytesPrint : Prop :=
  ∀ (s : State) (w : Bool), s.status = .running → s.ip < s.len →
    (s.mem.get s.ip = opByte 0b101000#6 false w →
      step s = .next (Pseudocode.conclude s (do
        let a ← memRead2 s (s.ip + 1)
        return ⟨movName, acc (Width.ofBit w), ['['] ++ dec a.toNat ++ [']'], 3⟩))) ∧
    (s.mem.get s.ip = opByte 0b101000#6 true w →
      step s = .next (Pseudocode.conclude s (do
        let a ← memRead2 s (s.ip + 1)
        return ⟨movName, ['['] ++ dec a.toNat ++ [']'], acc (Width.ofBit w), 3⟩)))

/-- In a running state whose byte at ip is 00aaa0dw, for every aaa, step prints alu[aaa] with the r/m operand and the register in the order d gives; a missing byte raises TruncatedInstruction(ip). The fixed bits are the spec's additions G1 (log entry 12). -/
def Obligations.AluRegisterBytesPrint : Prop :=
  ∀ (s : State) (aop : BitVec 3) (w : Bool), s.status = .running → s.ip < s.len →
    (s.mem.get s.ip = opByte (0b00#2 ++ aop ++ 0b0#1) false w →
      step s = .next (Pseudocode.conclude s (do
        let b1 ← memRead1 s (s.ip + 1)
        let (m, n) ← Pseudocode.rmoperand s (modField b1) (rmField b1) (Width.ofBit w) (s.ip + 2)
        return ⟨alu aop, m, regname (Width.ofBit w) (regField b1), 2 + n⟩))) ∧
    (s.mem.get s.ip = opByte (0b00#2 ++ aop ++ 0b0#1) true w →
      step s = .next (Pseudocode.conclude s (do
        let b1 ← memRead1 s (s.ip + 1)
        let (m, n) ← Pseudocode.rmoperand s (modField b1) (rmField b1) (Width.ofBit w) (s.ip + 2)
        return ⟨alu aop, regname (Width.ofBit w) (regField b1), m, 2 + n⟩)))

/-- In a running state whose byte at ip is 100000sw: mnemonic from the reg field of the second byte, then operand and immediate with s and w. 00aaa10w: immediate to the accumulator with s = 0. A missing byte raises TruncatedInstruction(ip). Fixed bits: G1, D4 (log entries 7 and 12). -/
def Obligations.AluImmediateBytesPrint : Prop :=
  (∀ (s : State) (sx w : Bool), s.status = .running → s.ip < s.len → s.mem.get s.ip = opByte 0b100000#6 sx w →
    step s = .next (Pseudocode.conclude s (do
      let b1 ← memRead1 s (s.ip + 1)
      let (m, n) ← Pseudocode.rmoperand s (modField b1) (rmField b1) (Width.ofBit w) (s.ip + 2)
      let (i, k) ← Pseudocode.imm s sx (Width.ofBit w) (s.ip + 2 + n)
      return ⟨alu (regField b1), m, if modField b1 ≠ 0b11#2 then sizePrefix (Width.ofBit w) ++ i else i, 2 + n + k⟩))) ∧
  ∀ (s : State) (aop : BitVec 3) (w : Bool), s.status = .running → s.ip < s.len →
    s.mem.get s.ip = opByte (0b00#2 ++ aop ++ 0b1#1) false w →
    step s = .next (Pseudocode.conclude s (do
      let (i, k) ← Pseudocode.imm s false (Width.ofBit w) (s.ip + 1)
      return ⟨alu aop, acc (Width.ofBit w), i, 1 + k⟩))

/-- In a running state whose byte at ip is 0111cccc (111000ll), step reads the displacement byte, prints jcc[cccc] (loopn[ll]) and the target, and advances by 2; an opcode byte that is the last of the stream raises TruncatedInstruction(ip). Fixed bits and table order: G1, D7 (log entry 12). -/
def Obligations.JumpBytesPrint : Prop :=
  ∀ s : State, s.status = .running → s.ip < s.len →
    (∀ cc : BitVec 4, s.mem.get s.ip = (0b0111#4 ++ cc : BitVec (4 + 4)) →
      step s = .next (Pseudocode.conclude s (do
        let rel8 ← memRead1 s (s.ip + 1)
        return ⟨jcc cc, Pseudocode.target (signed8 rel8), [], 2⟩))) ∧
    (∀ ll : BitVec 2, s.mem.get s.ip = (0b111000#6 ++ ll : BitVec (6 + 2)) →
      step s = .next (Pseudocode.conclude s (do
        let rel8 ← memRead1 s (s.ip + 1)
        return ⟨loopn ll, Pseudocode.target (signed8 rel8), [], 2⟩)))

/-! ### Error conditions and the end of a run -/

/-- In a running state with ip < N: if the byte at ip classifies as Unsupported, step changes only the status, to Fault(UnsupportedOpcode(byte, ip)); the same for 0xC6 and 0xC7 when the second byte is there and its reg field is not 000, before any further byte is looked at. The clause on C6 and C7 is decision D6 of the spec, and that 00aaa11w, C4 and C5 are unsupported its decisions D4 and D5 (log entry 7); that out is kept is its decision D9 (log entry 9). -/
def Obligations.UnsupportedOpcodeHalts : Prop :=
  ∀ s : State, s.status = .running → s.ip < s.len →
    (classify (s.mem.get s.ip) = .unsupported →
      step s = .next { s with status := .fault (.unsupportedOpcode (s.mem.get s.ip) s.ip) }) ∧
    (s.mem.get s.ip = 0xC6#8 ∨ s.mem.get s.ip = 0xC7#8 → s.ip + 1 < s.len → regField (s.mem.get (s.ip + 1)) ≠ 0 →
      step s = .next { s with status := .fault (.unsupportedOpcode (s.mem.get s.ip) s.ip) })

/-- For every well-formed instruction and every k from 1 up to its length less 1: in a running state whose stream ends k bytes after ip, these k bytes being the first k of the encoding, step changes only the status, to Fault(TruncatedInstruction(ip)). -/
def Obligations.ProperPartOfAnInstructionIsTruncated : Prop :=
  ∀ (i : Instr) (k : Nat) (s : State), i.wellFormed = true → 0 < k → k < i.len → s.status = .running → s.len = s.ip + k →
    (∀ j, j < k → s.mem.get (s.ip + j) = (encode i).getD j 0#8) →
    step s = .next { s with status := .fault (.truncatedInstruction s.ip) }

/-- A step from Done or Fault(c) changes nothing; a step of a running state with ip = N changes only the status, to Done. So the empty stream gives Done with only the header. -/
def Obligations.FinishedRunsStayAsTheyAre : Prop :=
  (∀ s : State, s.status ≠ .running → step s = .next s) ∧
  (∀ s : State, s.status = .running → s.ip = s.len → step s = .next { s with status := .done }) ∧
  step (State.start []) = .next { State.start [] with status := .done } ∧ (State.start []).out = header

/-- For every state, step answers a next state, and for every instruction and state, exec does. That a raised condition is a next state is read from the spec (log entry 1). -/
def Obligations.StepAlwaysAnswersANextState : Prop :=
  (∀ s : State, ∃ t, step s = .next t) ∧ ∀ (i : Instr) (s : State), ∃ t, exec i s = .next t

/-- If a step of a running state answers a faulted state, then only the status differs, and the condition is UnsupportedOpcode of the byte at ip with offset ip or TruncatedInstruction with offset ip. -/
def Obligations.ConditionIsPrecise : Prop :=
  ∀ (s t : State) (c : Condition), s.status = .running → step s = .next t → t.status = .fault c →
    t = { s with status := .fault c } ∧
    ((c = .truncatedInstruction s.ip) ∨ (s.ip < s.len ∧ c = .unsupportedOpcode (s.mem.get s.ip) s.ip))

/-- From every state, reachable or not: if a step answers a state whose status is Fault(InvalidAddressingMode) or Fault(MalformedInstruction), then the status was that already. The resolver called with mod = 11 does answer InvalidAddressingMode. -/
def Obligations.InternalConditionsAreUnreachable : Prop :=
  (∀ (s t : State) (o : Nat), step s = .next t →
    (t.status = .fault (.invalidAddressingMode o) → s.status = .fault (.invalidAddressingMode o)) ∧
    (t.status = .fault (.malformedInstruction o) → s.status = .fault (.malformedInstruction o))) ∧
  ∀ (rm : BitVec 3) (bs : List Byte), resolveEa 0b11#2 rm bs = .error .invalidAddressingMode

/-- When a step of a running state raises a condition, the text delivered under this hardware's policy, which is flagged, is the out from before the step, and the host's report is the fault with that out and the ip from before the step; when a step finds the end of the stream, the same holds of Done under both policies. In every state: after a fault the text delivered is out, under discarded nothing, and after Done out under both; the host's report is status, out and ip exactly when the run is over. The policy is decision D9 of the spec (log entry 9). -/
def Obligations.PolicyOfTheOutputAfterAFault : Prop :=
  Config.errorOutputPolicy = .flagged ∧
  (∀ (s t : State) (c : Condition), s.status = .running → step s = .next t → t.status = .fault c →
    deliveredText Config.errorOutputPolicy t = some s.out ∧ deliveredText .discarded t = none ∧
    hostReport t = some (.fault c, s.out, s.ip)) ∧
  (∀ (s t : State) (p : ErrorOutputPolicy), s.status = .running → step s = .next t → t.status = .done →
    deliveredText p t = some s.out ∧ hostReport t = some (.done, s.out, s.ip)) ∧
  (∀ (s : State) (c : Condition), s.status = .fault c →
    deliveredText .flagged s = some s.out ∧ deliveredText .discarded s = none ∧ hostReport s = some (s.status, s.out, s.ip)) ∧
  (∀ (s : State) (p : ErrorOutputPolicy), s.status = .done →
    deliveredText p s = some s.out ∧ hostReport s = some (s.status, s.out, s.ip)) ∧
  ∀ s : State, s.status = .running → hostReport s = none

/-! ### Rules over all steps -/

/-- In every state: a step leaves every offset of S reading as before, and N as before. -/
def Obligations.StreamIsNeverWritten : Prop :=
  ∀ s t : State, step s = .next t → (∀ a, t.mem.get a = s.mem.get a) ∧ t.mem = s.mem ∧ t.len = s.len

/-- From every state with ip <= N: after a step ip is at least what it was and at most N (and at most MAX_LEN for every bound that admits N); a running state with ip = N is done by the step; and ip changes only with an instruction wholly decoded and rendered, by its length. MAX_LEN is the open parameter of decision D3, and keeping N within it is the caller's duty (R203); the model takes ip and N as unbounded (log entry 6). -/
def Obligations.PointerStaysInBounds : Prop :=
  ∀ s t : State, s.ip ≤ s.len → step s = .next t →
    s.ip ≤ t.ip ∧ t.ip ≤ t.len ∧ (∀ bound, fitsMaxLen bound s.len → fitsMaxLen bound t.ip) ∧
    (s.status = .running → s.ip = s.len → t.status = .done) ∧
    (t.ip ≠ s.ip → ∃ i, fetch s = .ok i ∧ t.ip = s.ip + i.len ∧ t.out = s.out ++ lineOf i)

/-- From every running state: a step either sets the status to Done or a fault and changes nothing else, or keeps the status, appends exactly one line (text with one newline, at its end) and advances ip by the length of the decoded instruction, 2 to 6; a decoded jump does not move ip elsewhere. -/
def Obligations.ProgressOfAStep : Prop :=
  ∀ s t : State, s.status = .running → step s = .next t →
    (t.status ≠ .running ∧ t = { s with status := t.status }) ∨
    (∃ i line, fetch s = .ok i ∧ 2 ≤ i.len ∧ i.len ≤ 6 ∧ '\n' ∉ line ∧
      t = { s with out := s.out ++ (line ++ ['\n']), ip := s.ip + i.len })

/-- The start state has the header in out. In every state: a step leaves out and ip as they were, or decodes an instruction, advances by its length and appends one line, ended by its only newline; every character appended is ASCII (0x0A or 0x20 to 0x7E); so an out that begins with the header still does. Once the run is over, the host gets out verbatim. The range of the characters is decision D16 of the spec, one character being one byte (log entries 10 and 12); that the header stands in the start state is its decision D13. -/
def Obligations.OutputIsAppendOnly : Prop :=
  (∀ bs : List Byte, (State.start bs).out = header) ∧
  (∀ s t : State, step s = .next t →
    ((t.out = s.out ∧ t.ip = s.ip) ∨ ∃ i line, fetch s = .ok i ∧ t.ip = s.ip + i.len ∧
      t.out = s.out ++ (line ++ ['\n']) ∧ '\n' ∉ line ∧ line.all asciiChar = true) ∧
    (header <+: s.out → header <+: t.out)) ∧
  ∀ s : State, s.status ≠ .running → hostReport s = some (s.status, s.out, s.ip)

/-- In every state: a step leaves out and ip as they were, or appends one line of the grammar: a data mnemonic with a register or memory destination and a register, memory, immediate or sized source, or a jump mnemonic with a target. -/
def Obligations.EveryLineMatchesTheGrammar : Prop :=
  ∀ s t : State, step s = .next t → (t.out = s.out ∧ t.ip = s.ip) ∨ (s.ip < t.ip ∧ ∃ line, IsLine line ∧ t.out = s.out ++ line)

/-- Two running states with the same ip, at most N in both, whose streams have the same offsets and bytes from ip to ip + 5, take steps to the same ip and status and append the same text, whatever else differs (earlier or later bytes, out). The same state always steps to the same state. -/
def Obligations.StepDependsOnSixBytesOnly : Prop :=
  (∀ s t s' t' : State, s.status = .running → t.status = .running → s.ip = t.ip → s.ip ≤ s.len → t.ip ≤ t.len →
    (∀ j, s.ip ≤ j → j < s.ip + 6 → (j < s.len ↔ j < t.len)) →
    (∀ j, s.ip ≤ j → j < s.ip + 6 → j < s.len → s.mem.get j = t.mem.get j) →
    step s = .next s' → step t = .next t' →
    s'.ip = t'.ip ∧ s'.status = t'.status ∧ ∃ added, s'.out = s.out ++ added ∧ t'.out = t.out ++ added) ∧
  ∀ s t u : State, step s = .next t → step s = .next u → t = u

/-- For every byte list the start state meets Inv (canonical stream within N, ip <= N, out headed and ASCII, status fitting), and so does State.reset. The canonical form of the stream is the model's own representation (log entry 2), and that State.reset holds the empty stream its own choice (log entry 3); the range of the characters is decision D16 of the spec (log entries 10 and 12). -/
def Obligations.InvariantHoldsAtStart : Prop :=
  Inv State.reset ∧ ∀ bs : List Byte, Inv (State.start bs)

/-- From every state that meets Inv: the stream stays canonical and within N, ip <= N, out begins with the header and is ASCII, Done means ip = N, and a fault is UnsupportedOpcode of the byte at ip or TruncatedInstruction, with offset ip below N. The canonical form of the stream is the model's own representation, of which the spec says nothing (log entry 2); the range of the characters is decision D16 of the spec (log entries 10 and 12). -/
def Obligations.EveryStepKeepsTheInvariant : Prop :=
  ∀ s t : State, Inv s → step s = .next t → Inv t

/-- For every state with ip <= N: after (N - ip) / 2 + 1 steps the status is not Running. From the start of a run this is floor(N / 2) + 1. -/
def Obligations.RunsTerminate : Prop :=
  ∀ s : State, s.ip ≤ s.len → ∃ t, core.run ((s.len - s.ip) / 2 + 1) s = .next t ∧ t.status ≠ .running

/-! ### Whole runs -/

/-- For every stream handed over and every number of steps: if the status is then Done, the stream is the concatenation of the encodings of well-formed instructions, out is the header followed by one line per instruction in stream order, and ip = N. -/
def Obligations.DoneMeansTheStreamIsTiled : Prop :=
  ∀ (bs : List Byte) (k : Nat) (t : State), core.run k (State.start bs) = .next t → t.status = .done →
    ∃ is : List Instr, (∀ i ∈ is, i.wellFormed = true) ∧ bs = assemble is ∧ t.out = listing is ∧ t.ip = bs.length

/-- For every list of n well-formed instructions, the run on the concatenation of their encodings is Done after n + 1 steps, ip is the length of the stream and out is the header followed by their lines in order. -/
def Obligations.AssembledInstructionsAreListed : Prop :=
  ∀ is : List Instr, (∀ i ∈ is, i.wellFormed = true) →
    core.run (is.length + 1) (State.start (assemble is)) =
      .next { State.start (assemble is) with out := listing is, ip := (assemble is).length, status := .done }

/-- For every stream: if after some steps the status is a fault and ip = k, then the run on the first k bytes ends in Done with the same out and ip = k. -/
def Obligations.FaultLeavesACompletePrefix : Prop :=
  ∀ (bs : List Byte) (n : Nat) (t : State) (c : Condition), core.run n (State.start bs) = .next t → t.status = .fault c →
    ∃ m u, core.run m (State.start (bs.take t.ip)) = .next u ∧ u.status = .done ∧ u.out = t.out ∧ u.ip = t.ip

/-- For all streams S and T: if the run on S reaches Done with output o, the run on S ++ T reaches a running state with output o and ip = |S|. -/
def Obligations.ExtendingADecodedStreamKeepsItsOutput : Prop :=
  ∀ (bs more : List Byte) (n : Nat) (t : State), core.run n (State.start bs) = .next t → t.status = .done →
    ∃ m u, core.run m (State.start (bs ++ more)) = .next u ∧ u.status = .running ∧ u.out = t.out ∧ u.ip = bs.length

/-- In every state and for every table word that decodes to i: the step of the state with the word placed runs i there and completes it, leaving ip and out of the state but for i's own line and length. How a program comes to run is the model's convention (log entry 4). -/
def Obligations.PlacedWordIsDecodedNext : Prop :=
  ∀ (s : State) (nbits w : Nat) (i : Instr), decodeTableWord nbits w = some i →
    step (s.withFetchWord nbits w) = exec i (s.withFetchWord nbits w) ∧
    ∃ t, exec i (s.withFetchWord nbits w) = .next t ∧ t.ip = s.ip + i.len ∧ t.out = s.out ++ lineOf i ∧ t.status = .running
end

