-- ==== Sys2Proof/Laws/Decode.lean ====
section
/-! SUPPORT. Fields of encoded bytes, and what the readers of a window can answer. -/

namespace Sys2Proof

@[simp] theorem AluOp.ofCode_code (op : AluOp) : AluOp.ofCode op.code = op := by cases op <;> rfl
@[simp] theorem Jcc.ofCode_code (cc : Jcc) : Jcc.ofCode cc.code = cc := by cases cc <;> rfl
@[simp] theorem LoopOp.ofCode_code (lp : LoopOp) : LoopOp.ofCode lp.code = lp := by cases lp <;> rfl
@[simp] theorem AluOp.code_ofCode : ∀ c, (AluOp.ofCode c).code = c := by decide
@[simp] theorem Jcc.code_ofCode : ∀ c, (Jcc.ofCode c).code = c := by decide
@[simp] theorem LoopOp.code_ofCode : ∀ c, (LoopOp.ofCode c).code = c := by decide
@[simp] theorem Width.ofBit_bit (w : Width) : Width.ofBit w.bit = w := by cases w <;> rfl
@[simp] theorem Width.bit_ofBit (b : Bool) : (Width.ofBit b).bit = b := by cases b <;> rfl

/-! ### The mod/reg/r-m byte -/

@[simp] theorem modField_modRegRm : ∀ m r b, modField (modRegRm m r b) = m := by decide
@[simp] theorem regField_modRegRm : ∀ m r b, regField (modRegRm m r b) = r := by decide
@[simp] theorem rmField_modRegRm : ∀ m r b, rmField (modRegRm m r b) = b := by decide
theorem modRegRm_fields : ∀ b1, modRegRm (modField b1) (regField b1) (rmField b1) = b1 := by decide

/-! ### 16-bit quantities -/

@[simp] theorem wordOfBytes_wordBytes (v : Word) : wordOfBytes (v.extractLsb' 0 8) (v.extractLsb' 8 8) = v := by
  apply BitVec.eq_of_getLsbD_eq
  intro i hi
  simp only [wordOfBytes, BitVec.getLsbD_append, BitVec.getLsbD_extractLsb']
  by_cases h : i < 8
  · simp [h]
  · have : i - 8 < 8 := by omega
    simp [h, this, show 8 + (i - 8) = i by omega]

@[simp] theorem wordBytes_wordOfBytes (lo hi : Byte) : wordBytes (wordOfBytes lo hi) = [lo, hi] := by
  simp only [wordBytes, wordOfBytes, List.cons.injEq, and_true]
  constructor <;> apply BitVec.eq_of_getLsbD_eq <;> intro i hi <;>
    simp only [BitVec.getLsbD_extractLsb', BitVec.getLsbD_append]
  · simp [hi]
  · simp [hi]

@[simp] theorem takeByte_cons (b : Byte) (bs : List Byte) : takeByte (b :: bs) = .ok (b, bs) := rfl

@[simp] theorem takeWord_wordBytes (v : Word) (bs : List Byte) : takeWord (wordBytes v ++ bs) = .ok (v, bs) := by
  simp [takeWord, wordBytes]

theorem takeByte_ok {bs : List Byte} {b : Byte} {r : List Byte} (h : takeByte bs = .ok (b, r)) : bs = b :: r := by
  cases bs with
  | nil => simp [takeByte] at h
  | cons c bs => simp only [takeByte, Except.ok.injEq, Prod.mk.injEq] at h; rw [h.1, h.2]

theorem takeWord_ok {bs : List Byte} {v : Word} {r : List Byte} (h : takeWord bs = .ok (v, r)) : bs = wordBytes v ++ r := by
  match bs, h with
  | lo :: hi :: bs, h =>
    simp only [takeWord, Except.ok.injEq, Prod.mk.injEq] at h
    rw [← h.1, ← h.2, wordBytes_wordOfBytes]; rfl

/-! ### The resolvers on encoded bytes -/

theorem resolveRm_encoded (rm : Rm) (bs : List Byte) (h : rm.wellFormed = true) :
    resolveRm rm.modBits rm.rmBits (rm.dispBytes ++ bs) = .ok (rm, bs) := by
  cases rm with
  | reg c => rfl
  | direct a => simp [resolveRm, resolveEa, Rm.modBits, Rm.rmBits, Rm.dispBytes]
  | base r =>
    have hr : r ≠ 6#3 := by simpa [Rm.wellFormed] using h
    simp [resolveRm, resolveEa, Rm.modBits, Rm.rmBits, Rm.dispBytes, hr]; rfl
  | disp8 r d => rfl
  | disp16 r d => simp [resolveRm, resolveEa, Rm.modBits, Rm.rmBits, Rm.dispBytes]

theorem resolveImm_encoded (imm : Imm) (bs : List Byte) :
    resolveImm imm.s imm.width (imm.bytes ++ bs) = .ok (imm, bs) := by
  cases imm with
  | byte s b => rfl
  | sext b => rfl
  | word v => simp [resolveImm, Imm.s, Imm.width, Imm.bytes]

/-! ### Classification of the encoder's opcode bytes -/

theorem classify_rmReg (op : Op) (d w : Bool) :
    classify (opByte op.rmRegBits d w) = .rmReg op d (Width.ofBit w) := by
  rcases op with _ | op
  · cases d <;> cases w <;> decide
  · cases op <;> cases d <;> cases w <;> decide

theorem classify_immAcc (op : AluOp) (w : Bool) :
    classify (opByte (0b00#2 ++ op.code ++ 0b1#1) false w) = .immAcc op false (Width.ofBit w) := by
  cases op <;> cases w <;> decide

theorem classify_movImmRm (w : Bool) : classify (opByte 0b110001#6 true w) = .movImmRm (Width.ofBit w) := by
  cases w <;> decide

theorem classify_aluImmRm (s w : Bool) : classify (opByte 0b100000#6 s w) = .aluImmRm s (Width.ofBit w) := by
  cases s <;> cases w <;> decide

theorem classify_memAcc (d w : Bool) : classify (opByte 0b101000#6 d w) = .memAcc d (Width.ofBit w) := by
  cases d <;> cases w <;> decide

theorem classify_immReg : ∀ (w : Bool) (reg : BitVec 3),
    classify (0b1011#4 ++ BitVec.ofBool w ++ reg : BitVec (4 + 1 + 3)) = .immReg (Width.ofBit w) reg := by
  decide

theorem classify_jump (cc : Jcc) : classify (0b0111#4 ++ cc.code : BitVec (4 + 4)) = .jump cc := by
  cases cc <;> decide

theorem classify_loop (lp : LoopOp) : classify (0b111000#6 ++ lp.code : BitVec (6 + 2)) = .loop lp := by
  cases lp <;> decide

/-! ### What the readers and the decoder can refuse with -/

theorem takeByte_error {bs : List Byte} {e : Reject} (h : takeByte bs = .error e) : e = .truncated := by
  cases bs <;> simp [takeByte] at h; exact h.symm

theorem takeWord_error {bs : List Byte} {e : Reject} (h : takeWord bs = .error e) : e = .truncated := by
  rcases bs with _ | ⟨x, _ | ⟨y, bs⟩⟩ <;> simp [takeWord] at h <;> exact h.symm

/-- A sequence that fails, fails in its first part or in the rest. -/
theorem bind_error {α β : Type} {x : Except Reject α} {f : α → Except Reject β} {e : Reject}
    (h : x >>= f = .error e) : x = .error e ∨ ∃ a, x = .ok a ∧ f a = .error e := by
  cases x with
  | error e' => exact .inl (by simpa [bind, Except.bind] using h)
  | ok a => exact .inr ⟨a, rfl, h⟩

theorem resolveRm_error {m : BitVec 2} {r : BitVec 3} {bs : List Byte} {e : Reject} (h : resolveRm m r bs = .error e) :
    e = .truncated := by
  unfold resolveRm resolveEa at h
  split_ifs at h
  · cases h
  · rcases bind_error h with h | ⟨_, _, h⟩
    exacts [takeWord_error h, nomatch h]
  · cases h
  · rcases bind_error h with h | ⟨_, _, h⟩
    exacts [takeByte_error h, nomatch h]
  · rcases bind_error h with h | ⟨_, _, h⟩
    exacts [takeWord_error h, nomatch h]

theorem resolveImm_error {s : Bool} {w : Width} {bs : List Byte} {e : Reject} (h : resolveImm s w bs = .error e) :
    e = .truncated := by
  cases w <;> cases s <;> rcases bind_error h with h | ⟨_, _, h⟩ <;>
    first | exact takeByte_error h | exact takeWord_error h | exact nomatch h

/-- All a refusal of the decoder can be: a truncation, or the opcode byte is unsupported by itself or by its `reg` field. -/
theorem decode_error {bs : List Byte} {e : Reject} (h : decode bs = .error e) :
    e = .truncated ∨ ∃ b0 r, bs = b0 :: r ∧ e = .unsupportedOpcode b0 ∧
      (classify b0 = .unsupported ∨ ∃ w b1 r', classify b0 = .movImmRm w ∧ r = b1 :: r' ∧ regField b1 ≠ 0) := by
  replace h : decodeFormWith Config.strictMatch bs = .error e := by
    simp only [decode, decodeWith, Except.map] at h
    split at h <;> cases h
    assumption
  match bs, h with
  | [], h => cases h; exact .inl rfl
  | b0 :: bs, h =>
    simp only [decodeFormWith] at h
    rw [show classifyWith Config.strictMatch b0 = classify b0 from rfl] at h
    cases hc : classify b0 <;> simp only [hc] at h
    case rmReg =>
      rcases bind_error h with h | ⟨_, _, h⟩
      · exact .inl (takeByte_error h)
      rcases bind_error h with h | ⟨_, _, h⟩
      exacts [.inl (resolveRm_error h), nomatch h]
    case immAcc =>
      rcases bind_error h with h | ⟨_, _, h⟩
      exacts [.inl (resolveImm_error h), nomatch h]
    case aluImmRm =>
      rcases bind_error h with h | ⟨_, _, h⟩
      · exact .inl (takeByte_error h)
      rcases bind_error h with h | ⟨_, _, h⟩
      · exact .inl (resolveRm_error h)
      rcases bind_error h with h | ⟨_, _, h⟩
      exacts [.inl (resolveImm_error h), nomatch h]
    case movImmRm w =>
      rcases bind_error h with h | ⟨⟨b1, r'⟩, hb, h⟩
      · exact .inl (takeByte_error h)
      simp only at h
      split at h
      · rename_i hr
        cases h
        exact .inr ⟨b0, bs, rfl, rfl, .inr ⟨w, b1, r', hc, takeByte_ok hb, hr.1⟩⟩
      rcases bind_error h with h | ⟨_, _, h⟩
      · exact .inl (resolveRm_error h)
      rcases bind_error h with h | ⟨_, _, h⟩
      exacts [.inl (resolveImm_error h), nomatch h]
    case immReg =>
      rcases bind_error h with h | ⟨_, _, h⟩
      exacts [.inl (resolveImm_error h), nomatch h]
    case memAcc =>
      rcases bind_error h with h | ⟨_, _, h⟩
      exacts [.inl (takeWord_error h), nomatch h]
    case jump =>
      rcases bind_error h with h | ⟨_, _, h⟩
      exacts [.inl (takeByte_error h), nomatch h]
    case loop =>
      rcases bind_error h with h | ⟨_, _, h⟩
      exacts [.inl (takeByte_error h), nomatch h]
    case unsupported => cases h; exact .inr ⟨b0, bs, rfl, rfl, .inl hc⟩

/-- A byte that classifies as unsupported is refused whatever follows. -/
theorem decode_of_unsupported {b0 : Byte} {bs : List Byte} (h : classify b0 = .unsupported) :
    decode (b0 :: bs) = .error (.unsupportedOpcode b0) := by
  have h : classifyWith Config.strictMatch b0 = .unsupported := h
  simp [decode, decodeWith, decodeFormWith, h, Except.map]

end Sys2Proof
end

