-- ==== Sys2Proof/Laws/State.lean ====
section
/-! SUPPORT. One lemma per field per named update of the state. -/

namespace Sys2Proof.Machine

@[simp] theorem State.setStatus_mem (s : State) (st : Status) : (s.setStatus st).mem = s.mem := rfl
@[simp] theorem State.setStatus_len (s : State) (st : Status) : (s.setStatus st).len = s.len := rfl
@[simp] theorem State.setStatus_ip (s : State) (st : Status) : (s.setStatus st).ip = s.ip := rfl
@[simp] theorem State.setStatus_out (s : State) (st : Status) : (s.setStatus st).out = s.out := rfl
@[simp] theorem State.setStatus_status (s : State) (st : Status) : (s.setStatus st).status = st := rfl

@[simp] theorem State.advance_mem (s : State) (t : Text) (n : Nat) : (s.advance t n).mem = s.mem := rfl
@[simp] theorem State.advance_len (s : State) (t : Text) (n : Nat) : (s.advance t n).len = s.len := rfl
@[simp] theorem State.advance_ip (s : State) (t : Text) (n : Nat) : (s.advance t n).ip = s.ip + n := rfl
@[simp] theorem State.advance_out (s : State) (t : Text) (n : Nat) : (s.advance t n).out = s.out ++ t := rfl
@[simp] theorem State.advance_status (s : State) (t : Text) (n : Nat) : (s.advance t n).status = s.status := rfl

@[simp] theorem State.start_mem (bs : List Byte) : (State.start bs).mem = Memory.setBytes [] 0 bs := rfl
@[simp] theorem State.start_len (bs : List Byte) : (State.start bs).len = bs.length := rfl
@[simp] theorem State.start_ip (bs : List Byte) : (State.start bs).ip = 0 := rfl
@[simp] theorem State.start_out (bs : List Byte) : (State.start bs).out = header := rfl
@[simp] theorem State.start_status (bs : List Byte) : (State.start bs).status = .running := rfl

@[simp] theorem State.place_mem (s : State) (bs : List Byte) : (s.place bs).mem = s.mem.setBytes s.ip bs := rfl
@[simp] theorem State.place_len (s : State) (bs : List Byte) : (s.place bs).len = max s.len (s.ip + bs.length) := rfl
@[simp] theorem State.place_ip (s : State) (bs : List Byte) : (s.place bs).ip = s.ip := rfl
@[simp] theorem State.place_out (s : State) (bs : List Byte) : (s.place bs).out = s.out := rfl
@[simp] theorem State.place_status (s : State) (bs : List Byte) : (s.place bs).status = .running := rfl

end Sys2Proof.Machine
end

