-- ==== Sys2Proof/Laws/Memory.lean ====
section
/-! SUPPORT. The stream as data: reading what was placed, and the canonical form kept by every operation on it. -/

namespace Sys2Proof.Machine

@[simp] theorem Memory.get_nil (a : Nat) : Memory.get [] a = 0#8 := rfl

theorem Memory.get_insertCell (m : Memory) (a x : Nat) (b : Byte) (h : ∀ c ∈ m, c.1 ≠ a) :
    (Memory.insertCell a b m).get x = if a = x then b else m.get x := by
  induction m with
  | nil => simp [Memory.insertCell, Memory.get]
  | cons c m ih =>
    obtain ⟨k, v⟩ := c
    have hk : k ≠ a := h (k, v) (by simp)
    have hm := ih fun c hc => h c (by simp [hc])
    by_cases hlt : a < k
    · simp [Memory.insertCell, hlt, Memory.get]
    · simp only [Memory.insertCell, hlt, if_false, Memory.get, hm]
      by_cases hkx : k = x
      · subst hkx; simp [Ne.symm hk]
      · simp [hkx]

theorem Memory.get_filter_ne (m : Memory) (a x : Nat) :
    Memory.get (m.filter fun c => c.1 != a) x = if a = x then 0#8 else m.get x := by
  induction m with
  | nil => simp
  | cons c m ih =>
    obtain ⟨k, v⟩ := c
    by_cases hka : k = a
    · subst hka
      simp only [List.filter, bne_self_eq_false, ih, Memory.get]
      split <;> simp_all
    · have : (k != a) = true := by simpa using hka
      simp only [List.filter, this, Memory.get, ih]
      by_cases hkx : k = x
      · subst hkx; simp [Ne.symm hka]
      · simp [hkx]

/-- A read after a write: the byte written at its offset, every other offset as before. -/
theorem Memory.get_set (m : Memory) (a x : Nat) (b : Byte) :
    (m.set a b).get x = if a = x then b else m.get x := by
  unfold Memory.set
  by_cases hb : b = 0#8
  · subst hb; simpa using Memory.get_filter_ne m a x
  · simp only [hb, if_false]
    rw [Memory.get_insertCell _ _ _ _ (by intro c hc; simpa using (List.mem_filter.mp hc).2),
      Memory.get_filter_ne]
    split <;> rfl

@[simp] theorem Memory.get_set_same (m : Memory) (a : Nat) (b : Byte) : (m.set a b).get a = b := by
  simp [Memory.get_set]

theorem Memory.get_set_other (m : Memory) (a x : Nat) (b : Byte) (h : a ≠ x) : (m.set a b).get x = m.get x := by
  simp [Memory.get_set, h]

theorem Memory.get_setBytes_before (bs : List Byte) : ∀ (m : Memory) (a x : Nat), x < a →
    (m.setBytes a bs).get x = m.get x := by
  induction bs with
  | nil => intro m a x _; rfl
  | cons b bs ih =>
    intro m a x hx
    rw [Memory.setBytes, ih _ _ _ (by omega), Memory.get_set_other _ _ _ _ (by omega)]

/-- Reading inside the placed bytes gives the byte placed. -/
theorem Memory.get_setBytes (bs : List Byte) : ∀ (m : Memory) (a k : Nat), k < bs.length →
    (m.setBytes a bs).get (a + k) = bs.getD k 0#8 := by
  induction bs with
  | nil => intro m a k hk; simp at hk
  | cons b bs ih =>
    intro m a k hk
    cases k with
    | zero =>
      rw [Memory.setBytes, Nat.add_zero, Memory.get_setBytes_before _ _ _ _ (by omega)]
      simp
    | succ k =>
      rw [Memory.setBytes, show a + (k + 1) = a + 1 + k by omega, ih _ _ _ (by simpa using hk)]
      simp

theorem Memory.get_setBytes_after (bs : List Byte) : ∀ (m : Memory) (a x : Nat), a + bs.length ≤ x →
    (m.setBytes a bs).get x = m.get x := by
  induction bs with
  | nil => intro m a x _; rfl
  | cons b bs ih =>
    intro m a x hx
    simp only [List.length_cons] at hx
    rw [Memory.setBytes, ih _ _ _ (by omega), Memory.get_set_other _ _ _ _ (by omega)]

/-! ### The canonical form -/

theorem Memory.wfFrom_mono (m : Memory) : ∀ lo lo', lo' ≤ lo → Memory.wfFrom lo m = true → Memory.wfFrom lo' m = true := by
  cases m with
  | nil => intros; rfl
  | cons c m =>
    intro lo lo' hle h
    simp only [Memory.wfFrom, Bool.and_eq_true, decide_eq_true_eq] at h ⊢
    exact ⟨⟨by omega, h.1.2⟩, h.2⟩

theorem Memory.wfFrom_filter (p : Host.Cell → Bool) (m : Memory) : ∀ lo, Memory.wfFrom lo m = true →
    Memory.wfFrom lo (m.filter p) = true := by
  induction m with
  | nil => intros; rfl
  | cons c m ih =>
    obtain ⟨k, v⟩ := c
    intro lo h
    simp only [Memory.wfFrom, Bool.and_eq_true, decide_eq_true_eq] at h
    cases hp : p (k, v) with
    | true => simpa only [List.filter, hp, Memory.wfFrom, ih _ h.2, Bool.and_eq_true, decide_eq_true_eq, and_true] using h.1
    | false =>
      simp only [List.filter, hp]
      exact Memory.wfFrom_mono _ _ _ (by omega) (ih _ h.2)

theorem Memory.wfFrom_insertCell (a : Nat) (b : Byte) (hb : b ≠ 0#8) (m : Memory) : ∀ lo, lo ≤ a →
    (∀ c ∈ m, c.1 ≠ a) → Memory.wfFrom lo m = true → Memory.wfFrom lo (Memory.insertCell a b m) = true := by
  induction m with
  | nil => intro lo hlo _ _; simp [Memory.insertCell, Memory.wfFrom, hlo, hb]
  | cons c m ih =>
    obtain ⟨k, v⟩ := c
    intro lo hlo hne h
    have hk : k ≠ a := hne (k, v) (by simp)
    simp only [Memory.wfFrom, Bool.and_eq_true, decide_eq_true_eq] at h
    by_cases hlt : a < k
    · simp only [Memory.insertCell, hlt, if_true, Memory.wfFrom, Bool.and_eq_true, decide_eq_true_eq]
      exact ⟨⟨hlo, by simpa using hb⟩, ⟨⟨by omega, h.1.2⟩, h.2⟩⟩
    · simp only [Memory.insertCell, hlt, if_false, Memory.wfFrom, Bool.and_eq_true, decide_eq_true_eq]
      exact ⟨h.1, ih _ (by omega) (fun c hc => hne c (by simp [hc])) h.2⟩

/-- Placing a byte keeps the canonical form. -/
theorem Memory.wf_set (m : Memory) (a : Nat) (b : Byte) (h : m.wf = true) : (m.set a b).wf = true := by
  unfold Memory.set Memory.wf
  by_cases hb : b = 0#8
  · simpa [hb] using Memory.wfFrom_filter _ m 0 h
  · simp only [hb, if_false]
    exact Memory.wfFrom_insertCell a b hb _ 0 (Nat.zero_le _) (by intro c hc; simpa using (List.mem_filter.mp hc).2)
      (Memory.wfFrom_filter _ m 0 h)

theorem Memory.wf_setBytes (bs : List Byte) : ∀ (m : Memory) (a : Nat), m.wf = true → (m.setBytes a bs).wf = true := by
  induction bs with
  | nil => intro m a h; exact h
  | cons b bs ih => intro m a h; exact ih _ _ (Memory.wf_set _ _ _ h)

theorem Memory.mem_insertCell (a : Nat) (b : Byte) (c : Host.Cell) (m : Memory) :
    c ∈ Memory.insertCell a b m → c = (a, b) ∨ c ∈ m := by
  induction m with
  | nil => simp [Memory.insertCell]
  | cons d m ih =>
    unfold Memory.insertCell
    split
    · simp
    · simp only [List.mem_cons]
      rintro (h | h)
      · exact .inr (.inl h)
      · exact (ih h).imp id .inr

theorem Memory.within_set (m : Memory) (a n : Nat) (b : Byte) (ha : a < n) (h : m.within n = true) :
    (m.set a b).within n = true := by
  simp only [Memory.within, List.all_eq_true, decide_eq_true_eq] at h ⊢
  intro c hc
  unfold Memory.set at hc
  have hrest : ∀ c ∈ m.filter (fun c => c.1 != a), c.1 < n := fun c hc => h c (List.mem_filter.mp hc).1
  by_cases hb : b = 0#8
  · exact hrest c (by simpa [hb] using hc)
  · simp only [hb, if_false] at hc
    rcases Memory.mem_insertCell _ _ _ _ hc with rfl | hc
    · exact ha
    · exact hrest c hc

theorem Memory.within_setBytes (bs : List Byte) : ∀ (m : Memory) (a n : Nat), a + bs.length ≤ n → m.within n = true →
    (m.setBytes a bs).within n = true := by
  induction bs with
  | nil => intro m a n _ h; exact h
  | cons b bs ih =>
    intro m a n hle h
    simp only [List.length_cons] at hle
    exact ih _ _ _ (by omega) (Memory.within_set _ _ _ _ (by omega) h)

/-- The stream the caller hands over is held in the canonical form and within its length. -/
theorem State.start_wf (bs : List Byte) : (State.start bs).mem.wf = true := Memory.wf_setBytes _ _ _ rfl

theorem State.start_within (bs : List Byte) : (State.start bs).mem.within (State.start bs).len = true :=
  Memory.within_setBytes bs _ _ _ (by simp) rfl

theorem State.start_get (bs : List Byte) (k : Nat) (h : k < bs.length) : (State.start bs).mem.get k = bs.getD k 0#8 := by
  simpa using Memory.get_setBytes bs [] 0 k h

end Sys2Proof.Machine
end

