-- ==== Sys2Proof/Laws/Step.lean ====
section
/-! SUPPORT. What each shared operation, an instruction and a step can do, said once. -/

namespace Sys2Proof.Machine

/-! ### An instruction and its shape view -/

@[simp] theorem toInstr_form (i : Instr) : i.form.toInstr = i := by
  cases i <;> rfl

@[simp] theorem form_toInstr (f : Form) : f.toInstr.form = f := by
  cases f with
  | rmReg op d w rm reg => rcases op with _ | op <;> cases d <;> first | rfl | (cases op <;> rfl)
  | immAcc op imm => cases op <;> rfl
  | immRm op rm imm => rcases op with _ | op <;> first | rfl | (cases op <;> rfl)
  | immReg reg imm => rfl
  | memAcc d w a => cases d <;> rfl
  | jump cc r => cases cc <;> rfl
  | loop lp r => cases lp <;> rfl

/-- Every arm of `exec` retires the record of its shape. -/
theorem exec_eq (i : Instr) (s : State) : exec i s = retire (recordOf i.form) s := by
  cases i <;> rfl

theorem recordOf_len (f : Form) : (recordOf f).len = f.len := by
  cases f with
  | rmReg op d w rm reg => cases d <;> rfl
  | memAcc d w a => cases d <;> rfl
  | _ => rfl

/-! ### The renderer -/

theorem render_of_dst (ip : Nat) (d : Decoded) (h : d.dst ≠ []) :
    render ip d = .ok (d.mn ++ [' '] ++ d.dst ++ (if d.src = [] then [] else [',', ' '] ++ d.src) ++ ['\n']) := by
  unfold render
  by_cases hs : d.src = [] <;> simp [h, hs]

theorem regname_ne (w : Width) (c : BitVec 3) : regname w c ≠ [] := by
  revert c; cases w <;> decide

theorem acc_ne (w : Width) : acc w ≠ [] := by cases w <;> decide

theorem baseText_ne (b : Text) (d : Int) : baseText b d ≠ [] := by
  unfold baseText; split
  · simp
  · split <;> simp

theorem addrText_ne (a : Word) : addrText a ≠ [] := by simp [addrText, addrTextWith]

theorem rmText_ne (w : Width) (rm : Rm) : rmText w rm ≠ [] := by
  cases rm with
  | reg c => exact regname_ne w c
  | direct a => exact addrText_ne a
  | base r => exact baseText_ne _ _
  | disp8 r d => exact baseText_ne _ _
  | disp16 r d => exact baseText_ne _ _

theorem targetText_ne (r : Byte) : targetText r ≠ [] := by
  simp only [targetText]; split
  · simp
  · split <;> simp

/-- Every shape gives a destination (R97). -/
theorem recordOf_dst_ne (f : Form) : (recordOf f).dst ≠ [] := by
  cases f with
  | rmReg op d w rm reg => cases d; exacts [rmText_ne w rm, regname_ne w reg]
  | immAcc op imm => exact acc_ne _
  | immRm op rm imm => exact rmText_ne _ _
  | immReg reg imm => exact regname_ne _ _
  | memAcc d w a => cases d; exacts [acc_ne w, addrText_ne a]
  | jump cc r => exact targetText_ne r
  | loop lp r => exact targetText_ne r

theorem render_recordOf (ip : Nat) (i : Instr) : render ip (recordOf i.form) = .ok (lineOf i) := by
  simp only [lineOf, render_of_dst _ _ (recordOf_dst_ne i.form)]

/-! ### An instruction -/

/-- All an instruction can do: complete where it fits into the stream, else raise the truncation. -/
theorem exec_cases (i : Instr) (s : State) :
    (s.ip + i.len ≤ s.len ∧ exec i s = .next (s.advance (lineOf i) i.len)) ∨
    (s.len < s.ip + i.len ∧ exec i s = .next (s.setStatus (.fault (.truncatedInstruction s.ip)))) := by
  rw [exec_eq, retire, recordOf_len, render_recordOf]
  by_cases h : s.len < s.ip + i.form.len
  · exact .inr ⟨h, by simp [h, raise]⟩
  · exact .inl ⟨by simpa [Instr.len] using h, by simp [h, Instr.len]⟩

theorem exec_of_fits (i : Instr) (s : State) (h : s.ip + i.len ≤ s.len) :
    exec i s = .next (s.advance (lineOf i) i.len) := by
  rcases exec_cases i s with h' | h'
  · exact h'.2
  · omega

/-! ### Lengths -/

theorem Imm.len_cases (imm : Imm) : imm.len = 1 ∨ imm.len = 2 := by
  cases imm <;> simp [Imm.len, ilen, Imm.s, Imm.width]

theorem Rm.dispLen_le (rm : Rm) : rm.dispLen ≤ 2 := by cases rm <;> simp [Rm.dispLen]

theorem Form.len_bounds (f : Form) : 2 ≤ f.len ∧ f.len ≤ 6 := by
  cases f with
  | rmReg op d w rm reg => have := Rm.dispLen_le rm; simp only [Form.len]; omega
  | immAcc op imm => have := Imm.len_cases imm; simp only [Form.len]; omega
  | immRm op rm imm => have := Imm.len_cases imm; have := Rm.dispLen_le rm; simp only [Form.len]; omega
  | immReg reg imm => have := Imm.len_cases imm; simp only [Form.len]; omega
  | _ => simp [Form.len]

theorem Instr.len_bounds (i : Instr) : 2 ≤ i.len ∧ i.len ≤ 6 := Form.len_bounds i.form

/-! ### A step -/

/-- All a step can do. -/
theorem step_cases (s : State) :
    (s.status ≠ .running ∧ step s = .next s) ∨
    (s.status = .running ∧ s.ip = s.len ∧ step s = .next (s.setStatus .done)) ∨
    (s.status = .running ∧ s.ip ≠ s.len ∧ ∃ c, fetch s = .error c ∧ step s = .next (s.setStatus (.fault c))) ∨
    (s.status = .running ∧ s.ip ≠ s.len ∧ ∃ i, fetch s = .ok i ∧ step s = exec i s) := by
  unfold step
  cases hs : s.status with
  | running =>
    by_cases he : s.ip = s.len
    · exact .inr (.inl ⟨rfl, he, by simp [he, finish]⟩)
    · cases hf : fetch s with
      | ok i => exact .inr (.inr (.inr ⟨rfl, he, i, rfl, by simp [he]⟩))
      | error c => exact .inr (.inr (.inl ⟨rfl, he, c, rfl, by simp [he, raise]⟩))
  | done => exact .inl ⟨by simp, rfl⟩
  | fault c => exact .inl ⟨by simp, rfl⟩

/-! ### The window -/

theorem window_succ (s : State) (k a : Nat) :
    window s (k + 1) a = if a < s.len then s.mem.get a :: window s k (a + 1) else [] := by
  by_cases h : a < s.len
  · simp [window, memRead1, h, show ¬ s.len < a + 1 by omega]
  · simp [window, memRead1, h, show s.len < a + 1 by omega]

theorem window_length (s : State) : ∀ k a, (window s k a).length = min k (s.len - a)
  | 0, a => by simp [window]
  | k + 1, a => by
    rw [window_succ]
    split
    · rw [List.length_cons, window_length s k (a + 1)]; omega
    · simp; omega

theorem window_getElem? (s : State) : ∀ k a j, j < k → a + j < s.len → (window s k a)[j]? = some (s.mem.get (a + j))
  | 0, _, _, h, _ => by omega
  | k + 1, a, 0, _, h => by rw [window_succ, if_pos (by omega)]; simp
  | k + 1, a, j + 1, hj, h => by
    rw [window_succ, if_pos (by omega), List.getElem?_cons_succ,
      window_getElem? s k (a + 1) j (by omega) (by omega), show a + 1 + j = a + (j + 1) by omega]

/-- Two streams that agree on the offsets a window reads give the same window. -/
theorem window_congr (s t : State) : ∀ k a, (∀ j, a ≤ j → j < a + k → (j < s.len ↔ j < t.len)) →
    (∀ j, a ≤ j → j < a + k → j < s.len → s.mem.get j = t.mem.get j) → window s k a = window t k a
  | 0, _, _, _ => rfl
  | k + 1, a, hl, hm => by
    rw [window_succ, window_succ, window_congr s t k (a + 1) (fun j h1 h2 => hl j (by omega) (by omega))
      (fun j h1 h2 => hm j (by omega) (by omega))]
    by_cases h : a < s.len
    · rw [if_pos h, if_pos ((hl a (by omega) (by omega)).mp h), hm a (by omega) (by omega) h]
    · rw [if_neg h, if_neg (mt (hl a (by omega) (by omega)).mpr h)]

/-- The window of a state whose stream holds the listed bytes from `a` on, and no more. -/
theorem window_eq_take (s : State) (bs : List Byte) : ∀ k a, s.len = a + bs.length →
    (∀ j, j < bs.length → s.mem.get (a + j) = bs.getD j 0#8) → window s k a = bs.take k := by
  intro k
  induction k generalizing bs with
  | zero => intros; simp [window]
  | succ k ih =>
    intro a hl hm
    rw [window_succ]
    cases bs with
    | nil => simp at hl; simp [hl]
    | cons b bs =>
      simp only [List.length_cons] at hl hm
      have h0 := hm 0 (by omega)
      simp only [Nat.add_zero, List.getD_cons_zero] at h0
      rw [if_pos (by omega), h0, ih bs (a + 1) (by omega)]
      · simp
      · intro j hj
        have := hm (j + 1) (by omega)
        rw [show a + (j + 1) = a + 1 + j by omega] at this
        simpa using this

/-- All a refused fetch can be: the condition names the first byte of the instruction. -/
theorem fetch_error {s : State} {c : Condition} (h : fetch s = .error c) :
    c = .truncatedInstruction s.ip ∨ (s.ip < s.len ∧ c = .unsupportedOpcode (s.mem.get s.ip) s.ip) := by
  simp only [fetch, maxLen] at h
  split at h
  · cases h
  · rename_i e hd
    cases h
    rcases decode_error hd with rfl | ⟨b0, r, hb, rfl, -⟩
    · exact .inl rfl
    · rw [window_succ] at hb
      split at hb
      · rename_i hlt
        cases hb
        exact .inr ⟨hlt, rfl⟩
      · cases hb

end Sys2Proof.Machine
end

