-- ==== Sys2Proof/Laws/PerInstr.lean ====
section
/-! SUPPORT. The family LengthIsEncoded: the encoding of an instruction has the length of R54, between 2 and 6 bytes. One lemma per
constructor of `Instr`. -/

namespace Sys2Proof.Laws.LengthIsEncoded

def Statement (i : Instr) : Prop := (encode i).length = i.len ∧ 2 ≤ i.len ∧ i.len ≤ 6

theorem rm_length (rm : Rm) : rm.dispBytes.length = rm.dispLen := by cases rm <;> rfl

theorem imm_length (imm : Imm) : imm.bytes.length = imm.len := by cases imm <;> rfl

theorem form_length (f : Form) : f.encode.length = f.len := by
  cases f with
  | immRm op rm imm =>
    cases op <;> simp [Form.encode, Form.len, rm_length, imm_length] <;> omega
  | _ => simp [Form.encode, Form.len, rm_length, imm_length, wordBytes] <;> omega

theorem any (i : Instr) : Statement i :=
  ⟨form_length i.form, Machine.Instr.len_bounds i⟩

theorem movRmReg (w : Width) (rm : Rm) (reg : BitVec 3) : Statement (.movRmReg w rm reg) := any _
theorem movRegRm (w : Width) (rm : Rm) (reg : BitVec 3) : Statement (.movRegRm w rm reg) := any _
theorem movRmImm (rm : Rm) (imm : Imm) : Statement (.movRmImm rm imm) := any _
theorem movRegImm (reg : BitVec 3) (imm : Imm) : Statement (.movRegImm reg imm) := any _
theorem movAccMem (w : Width) (addr : Word) : Statement (.movAccMem w addr) := any _
theorem movMemAcc (w : Width) (addr : Word) : Statement (.movMemAcc w addr) := any _
theorem addRmReg (w : Width) (rm : Rm) (reg : BitVec 3) : Statement (.addRmReg w rm reg) := any _
theorem addRegRm (w : Width) (rm : Rm) (reg : BitVec 3) : Statement (.addRegRm w rm reg) := any _
theorem addAccImm (imm : Imm) : Statement (.addAccImm imm) := any _
theorem addRmImm (rm : Rm) (imm : Imm) : Statement (.addRmImm rm imm) := any _
theorem orRmReg (w : Width) (rm : Rm) (reg : BitVec 3) : Statement (.orRmReg w rm reg) := any _
theorem orRegRm (w : Width) (rm : Rm) (reg : BitVec 3) : Statement (.orRegRm w rm reg) := any _
theorem orAccImm (imm : Imm) : Statement (.orAccImm imm) := any _
theorem orRmImm (rm : Rm) (imm : Imm) : Statement (.orRmImm rm imm) := any _
theorem adcRmReg (w : Width) (rm : Rm) (reg : BitVec 3) : Statement (.adcRmReg w rm reg) := any _
theorem adcRegRm (w : Width) (rm : Rm) (reg : BitVec 3) : Statement (.adcRegRm w rm reg) := any _
theorem adcAccImm (imm : Imm) : Statement (.adcAccImm imm) := any _
theorem adcRmImm (rm : Rm) (imm : Imm) : Statement (.adcRmImm rm imm) := any _
theorem sbbRmReg (w : Width) (rm : Rm) (reg : BitVec 3) : Statement (.sbbRmReg w rm reg) := any _
theorem sbbRegRm (w : Width) (rm : Rm) (reg : BitVec 3) : Statement (.sbbRegRm w rm reg) := any _
theorem sbbAccImm (imm : Imm) : Statement (.sbbAccImm imm) := any _
theorem sbbRmImm (rm : Rm) (imm : Imm) : Statement (.sbbRmImm rm imm) := any _
theorem andRmReg (w : Width) (rm : Rm) (reg : BitVec 3) : Statement (.andRmReg w rm reg) := any _
theorem andRegRm (w : Width) (rm : Rm) (reg : BitVec 3) : Statement (.andRegRm w rm reg) := any _
theorem andAccImm (imm : Imm) : Statement (.andAccImm imm) := any _
theorem andRmImm (rm : Rm) (imm : Imm) : Statement (.andRmImm rm imm) := any _
theorem subRmReg (w : Width) (rm : Rm) (reg : BitVec 3) : Statement (.subRmReg w rm reg) := any _
theorem subRegRm (w : Width) (rm : Rm) (reg : BitVec 3) : Statement (.subRegRm w rm reg) := any _
theorem subAccImm (imm : Imm) : Statement (.subAccImm imm) := any _
theorem subRmImm (rm : Rm) (imm : Imm) : Statement (.subRmImm rm imm) := any _
theorem xorRmReg (w : Width) (rm : Rm) (reg : BitVec 3) : Statement (.xorRmReg w rm reg) := any _
theorem xorRegRm (w : Width) (rm : Rm) (reg : BitVec 3) : Statement (.xorRegRm w rm reg) := any _
theorem xorAccImm (imm : Imm) : Statement (.xorAccImm imm) := any _
theorem xorRmImm (rm : Rm) (imm : Imm) : Statement (.xorRmImm rm imm) := any _
theorem cmpRmReg (w : Width) (rm : Rm) (reg : BitVec 3) : Statement (.cmpRmReg w rm reg) := any _
theorem cmpRegRm (w : Width) (rm : Rm) (reg : BitVec 3) : Statement (.cmpRegRm w rm reg) := any _
theorem cmpAccImm (imm : Imm) : Statement (.cmpAccImm imm) := any _
theorem cmpRmImm (rm : Rm) (imm : Imm) : Statement (.cmpRmImm rm imm) := any _
theorem jo (rel8 : Byte) : Statement (.jo rel8) := any _
theorem jno (rel8 : Byte) : Statement (.jno rel8) := any _
theorem jb (rel8 : Byte) : Statement (.jb rel8) := any _
theorem jnb (rel8 : Byte) : Statement (.jnb rel8) := any _
theorem je (rel8 : Byte) : Statement (.je rel8) := any _
theorem jne (rel8 : Byte) : Statement (.jne rel8) := any _
theorem jbe (rel8 : Byte) : Statement (.jbe rel8) := any _
theorem ja (rel8 : Byte) : Statement (.ja rel8) := any _
theorem js (rel8 : Byte) : Statement (.js rel8) := any _
theorem jns (rel8 : Byte) : Statement (.jns rel8) := any _
theorem jp (rel8 : Byte) : Statement (.jp rel8) := any _
theorem jnp (rel8 : Byte) : Statement (.jnp rel8) := any _
theorem jl (rel8 : Byte) : Statement (.jl rel8) := any _
theorem jnl (rel8 : Byte) : Statement (.jnl rel8) := any _
theorem jle (rel8 : Byte) : Statement (.jle rel8) := any _
theorem jg (rel8 : Byte) : Statement (.jg rel8) := any _
theorem loopnz (rel8 : Byte) : Statement (.loopnz rel8) := any _
theorem loopz (rel8 : Byte) : Statement (.loopz rel8) := any _
theorem loop (rel8 : Byte) : Statement (.loop rel8) := any _
theorem jcxz (rel8 : Byte) : Statement (.jcxz rel8) := any _

end Sys2Proof.Laws.LengthIsEncoded
end

