-- ==== Sys2Proof/Tests/Slice0.lean ====
section
/-! SUPPORT. Tests: ill-formed terms refused, decoding of words written out from the encodings of the spec, single steps from the vectors
of 95_test_vectors.md, and, for every statement with hypotheses, a witness that meets them. -/

namespace Sys2Proof.Tests

open Sys2Proof Sys2Proof.Machine

/-! ### Helpers -/

/-- The next state of a result, if there is one. -/
def next (r : Result) : Option State :=
  match r with
  | .next s => some s
  | .fault _ => none
  | .refused _ => none

/-- Text, pointer and status after one step on a stream handed over, the header left out. -/
def after (bs : List Byte) : Option (Text × Nat × Status) :=
  (next (step (State.start bs))).map fun s => (s.out.drop 9, s.ip, s.status)

/-- One step completes the whole stream as one instruction with this line. -/
def prints (bs : List Byte) (line : String) : Bool :=
  decide (after bs = some (line.toList ++ ['\n'], bs.length, .running))

/-- One step raises a condition and appends nothing. -/
def raises (bs : List Byte) (c : Condition) : Bool :=
  decide (after bs = some ([], 0, .fault c))

/-- The bytes are one whole instruction. -/
def reads (bs : List Byte) (i : Instr) : Bool :=
  decide (decode bs = .ok (i, []))

/-- A running state with an empty output whose stream holds these bytes from offset 0, decoding at `ip`. -/
def at_ (ip : Nat) (bs : List Byte) : State := { State.start bs with ip := ip, out := [] }

/-! ### WellFormed refuses each ill-formed term -/

/-- Base 110 without displacement is the direct address (R54, R86). -/
theorem test_wellFormed_refuses_base_110 :
    Instr.wellFormed (.movRmReg .word (.base 6) 0) = false ∧ Instr.wellFormed (.movRegRm .byte (.base 6) 0) = false ∧
    Instr.wellFormed (.movRmImm (.base 6) (.word 0)) = false ∧ Instr.wellFormed (.addRmReg .byte (.base 6) 1) = false ∧
    Instr.wellFormed (.cmpRegRm .word (.base 6) 1) = false ∧ Instr.wellFormed (.xorRmImm (.base 6) (.sext 0)) = false := by
  decide

/-- Shapes with `s = 0` hold no immediate with `s = 1` (R56, R59). -/
theorem test_wellFormed_refuses_extended_immediates :
    Instr.wellFormed (.addAccImm (.sext 5)) = false ∧ Instr.wellFormed (.addAccImm (.byte true 5)) = false ∧
    Instr.wellFormed (.movRmImm (.reg 0) (.sext 5)) = false ∧ Instr.wellFormed (.movRmImm (.reg 0) (.byte true 5)) = false ∧
    Instr.wellFormed (.movRegImm 0 (.sext 5)) = false ∧ Instr.wellFormed (.movRegImm 0 (.byte true 5)) = false := by
  decide

theorem test_wellFormed_admits :
    Instr.wellFormed (.movRmReg .word (.base 7) 0) = true ∧ Instr.wellFormed (.movRmReg .word (.disp8 6 0) 0) = true ∧
    Instr.wellFormed (.addRmImm (.reg 6) (.sext 5)) = true ∧ Instr.wellFormed (.addRmImm (.reg 6) (.byte true 5)) = true ∧
    Instr.wellFormed (.addAccImm (.byte false 5)) = true ∧ Instr.wellFormed (.movRegImm 7 (.word 5)) = true := by
  decide

/-! ### Decoding, every constructor by a word written out from its encoding (30_encoding.md R55, R56) -/

/-- `1000100w`, `1000101w`, `1100011w` with reg 000, `1011wrrr`, `1010000w`, `1010001w`; operands in order of the fields. -/
theorem test_decode_mov :
    reads [0b10001000, 0b11101001] (.movRmReg .byte (.reg 1) 5) ∧
    reads [0b10001011, 0b00110110, 0x34, 0x12] (.movRegRm .word (.direct 0x1234) 6) ∧
    reads [0b11000111, 0b10000101, 0x85, 0x03, 0x5B, 0x01] (.movRmImm (.disp16 5 0x0385) (.word 0x015B)) ∧
    reads [0b11000110, 0b00000011, 0x07] (.movRmImm (.base 3) (.byte false 7)) ∧
    reads [0b10110001, 0x0C] (.movRegImm 1 (.byte false 0x0C)) ∧
    reads [0b10111111, 0x00, 0x80] (.movRegImm 7 (.word 0x8000)) ∧
    reads [0b10100001, 0xFB, 0x09] (.movAccMem .word 0x09FB) ∧
    reads [0b10100010, 0xFF, 0x01] (.movMemAcc .byte 0x01FF) := by
  decide

/-- `00aaa00w` with mod 01, reg 110, rm 001 and the displacement FE. -/
theorem test_decode_alu_rm_reg :
    reads [0b00000001, 0b01110001, 0xFE] (.addRmReg .word (.disp8 1 0xFE) 6) ∧
    reads [0b00001001, 0b01110001, 0xFE] (.orRmReg .word (.disp8 1 0xFE) 6) ∧
    reads [0b00010001, 0b01110001, 0xFE] (.adcRmReg .word (.disp8 1 0xFE) 6) ∧
    reads [0b00011001, 0b01110001, 0xFE] (.sbbRmReg .word (.disp8 1 0xFE) 6) ∧
    reads [0b00100001, 0b01110001, 0xFE] (.andRmReg .word (.disp8 1 0xFE) 6) ∧
    reads [0b00101001, 0b01110001, 0xFE] (.subRmReg .word (.disp8 1 0xFE) 6) ∧
    reads [0b00110001, 0b01110001, 0xFE] (.xorRmReg .word (.disp8 1 0xFE) 6) ∧
    reads [0b00111001, 0b01110001, 0xFE] (.cmpRmReg .word (.disp8 1 0xFE) 6) := by
  decide

/-- `00aaa01w` with mod 11, reg 011, rm 100. -/
theorem test_decode_alu_reg_rm :
    reads [0b00000010, 0b11011100] (.addRegRm .byte (.reg 4) 3) ∧
    reads [0b00001010, 0b11011100] (.orRegRm .byte (.reg 4) 3) ∧
    reads [0b00010010, 0b11011100] (.adcRegRm .byte (.reg 4) 3) ∧
    reads [0b00011010, 0b11011100] (.sbbRegRm .byte (.reg 4) 3) ∧
    reads [0b00100010, 0b11011100] (.andRegRm .byte (.reg 4) 3) ∧
    reads [0b00101010, 0b11011100] (.subRegRm .byte (.reg 4) 3) ∧
    reads [0b00110010, 0b11011100] (.xorRegRm .byte (.reg 4) 3) ∧
    reads [0b00111010, 0b11011100] (.cmpRegRm .byte (.reg 4) 3) := by
  decide

/-- `00aaa10w`, low byte of the immediate first. -/
theorem test_decode_alu_acc_imm :
    reads [0b00000101, 0x34, 0x12] (.addAccImm (.word 0x1234)) ∧
    reads [0b00001101, 0x34, 0x12] (.orAccImm (.word 0x1234)) ∧
    reads [0b00010101, 0x34, 0x12] (.adcAccImm (.word 0x1234)) ∧
    reads [0b00011101, 0x34, 0x12] (.sbbAccImm (.word 0x1234)) ∧
    reads [0b00100101, 0x34, 0x12] (.andAccImm (.word 0x1234)) ∧
    reads [0b00101101, 0x34, 0x12] (.subAccImm (.word 0x1234)) ∧
    reads [0b00110101, 0x34, 0x12] (.xorAccImm (.word 0x1234)) ∧
    reads [0b00111101, 0x34, 0x12] (.cmpAccImm (.word 0x1234)) := by
  decide

/-- `100000sw` with the operation in reg: `s = w = 1`, mod 10, rm 010, displacement before immediate. -/
theorem test_decode_alu_rm_imm :
    reads [0b10000011, 0b10000010, 0xE8, 0x03, 0x1D] (.addRmImm (.disp16 2 0x03E8) (.sext 0x1D)) ∧
    reads [0b10000011, 0b10001010, 0xE8, 0x03, 0x1D] (.orRmImm (.disp16 2 0x03E8) (.sext 0x1D)) ∧
    reads [0b10000011, 0b10010010, 0xE8, 0x03, 0x1D] (.adcRmImm (.disp16 2 0x03E8) (.sext 0x1D)) ∧
    reads [0b10000011, 0b10011010, 0xE8, 0x03, 0x1D] (.sbbRmImm (.disp16 2 0x03E8) (.sext 0x1D)) ∧
    reads [0b10000011, 0b10100010, 0xE8, 0x03, 0x1D] (.andRmImm (.disp16 2 0x03E8) (.sext 0x1D)) ∧
    reads [0b10000011, 0b10101010, 0xE8, 0x03, 0x1D] (.subRmImm (.disp16 2 0x03E8) (.sext 0x1D)) ∧
    reads [0b10000011, 0b10110010, 0xE8, 0x03, 0x1D] (.xorRmImm (.disp16 2 0x03E8) (.sext 0x1D)) ∧
    reads [0b10000011, 0b10111010, 0xE8, 0x03, 0x1D] (.cmpRmImm (.disp16 2 0x03E8) (.sext 0x1D)) := by
  decide

/-- `0111cccc`. -/
theorem test_decode_conditional_jumps :
    reads [0b01110000, 0x80] (.jo 0x80) ∧
    reads [0b01110001, 0x81] (.jno 0x81) ∧
    reads [0b01110010, 0x82] (.jb 0x82) ∧
    reads [0b01110011, 0x83] (.jnb 0x83) ∧
    reads [0b01110100, 0x84] (.je 0x84) ∧
    reads [0b01110101, 0x85] (.jne 0x85) ∧
    reads [0b01110110, 0x86] (.jbe 0x86) ∧
    reads [0b01110111, 0x87] (.ja 0x87) ∧
    reads [0b01111000, 0x88] (.js 0x88) ∧
    reads [0b01111001, 0x89] (.jns 0x89) ∧
    reads [0b01111010, 0x8A] (.jp 0x8A) ∧
    reads [0b01111011, 0x8B] (.jnp 0x8B) ∧
    reads [0b01111100, 0x8C] (.jl 0x8C) ∧
    reads [0b01111101, 0x8D] (.jnl 0x8D) ∧
    reads [0b01111110, 0x8E] (.jle 0x8E) ∧
    reads [0b01111111, 0x8F] (.jg 0x8F) := by
  decide

/-- `111000ll`. -/
theorem test_decode_loops :
    reads [0b11100000, 0x70] (.loopnz 0x70) ∧
    reads [0b11100001, 0x71] (.loopz 0x71) ∧
    reads [0b11100010, 0x72] (.loop 0x72) ∧
    reads [0b11100011, 0x73] (.jcxz 0x73) := by
  decide

/-- The forms of an immediate in `100000sw`: `80`, `82`, `81`, `83` (R59). -/
theorem test_decode_immediate_flags :
    reads [0x80, 0xC3, 0xFF] (.addRmImm (.reg 3) (.byte false 0xFF)) ∧ reads [0x82, 0xC3, 0xFF] (.addRmImm (.reg 3) (.byte true 0xFF)) ∧
    reads [0x81, 0xC3, 0xFF, 0x00] (.addRmImm (.reg 3) (.word 0x00FF)) ∧ reads [0x83, 0xC3, 0xFF] (.addRmImm (.reg 3) (.sext 0xFF)) := by
  decide

/-- The table's word has the opcode byte in bits 15 to 8, and later bytes are 0 (R71). -/
theorem test_tableWord :
    decodeTableWord 16 0x89D9 = some (.movRmReg .word (.reg 1) 3) ∧ decodeTableWord 16 0x8000 = some (.addRmImm (.base 0) (.byte false 0)) ∧
    decodeTableWord 16 0xC606 = some (.movRmImm (.direct 0) (.byte false 0)) ∧ decodeTableWord 16 0xE3FE = some (.jcxz 0xFE) ∧
    decodeTableWord 16 0xC608 = none ∧ decodeTableWord 16 0x0600 = none := by
  decide

/-- The word placed in the reset state is the first instruction to run. -/
theorem test_withFetchWord :
    next (step (State.reset.withFetchWord 16 0x89D9)) = next (exec (.movRmReg .word (.reg 1) 3) (State.reset.withFetchWord 16 0x89D9)) ∧
    (next (step (State.reset.withFetchWord 16 0x89D9))).map (fun s => (s.out.drop 9, s.ip)) = some ("mov cx, bx\n".toList, 2) := by
  decide

/-! ### Single steps: 95_test_vectors.md -/

/-- 2.1 to 2.4 -/
theorem test_step_mov_register_forms :
    prints [0x89, 0xD9] "mov cx, bx" ∧ prints [0x8B, 0xCB] "mov cx, bx" ∧ prints [0x88, 0x4F, 0xFB] "mov [bx - 5], cl" ∧
    prints [0x8B, 0x97, 0x00, 0x80] "mov dx, [bx - 32768]" ∧ prints [0x8B, 0x36, 0xFF, 0xFF] "mov si, [65535]" ∧
    prints [0x8B, 0x86, 0x00, 0x00] "mov ax, [bp]" := by
  decide

theorem test_step_mov_other_forms :
    prints [0xC7, 0x85, 0x85, 0x03, 0x5B, 0x01] "mov [di + 901], word 347" ∧ prints [0xC6, 0xC1, 0x80] "mov cl, 128" ∧
    prints [0xC7, 0x00, 0xFF, 0x00] "mov [bx + si], word 255" ∧ prints [0xB9, 0xF4, 0xFF] "mov cx, -12" ∧
    prints [0xB5, 0xF4] "mov ch, 244" ∧ prints [0xA1, 0x00, 0x80] "mov ax, [32768]" ∧ prints [0xA2, 0xFF, 0xFF] "mov [65535], al" := by
  decide

/-- 2.11 -/
theorem test_step_add :
    prints [0x01, 0xC1] "add cx, ax" ∧ prints [0x02, 0x0F] "add cl, [bx]" ∧ prints [0x04, 0x10] "add al, 16" ∧
    prints [0x05, 0x00, 0x01] "add ax, 256" ∧ prints [0x80, 0xC2, 0x05] "add dl, 5" ∧
    prints [0x83, 0x07, 0xFB] "add [bx], word -5" := by
  decide

theorem test_step_or :
    prints [0x09, 0xC1] "or cx, ax" ∧ prints [0x0A, 0x0F] "or cl, [bx]" ∧ prints [0x0C, 0x10] "or al, 16" ∧
    prints [0x0D, 0x00, 0x01] "or ax, 256" ∧ prints [0x80, 0xCA, 0x05] "or dl, 5" ∧
    prints [0x83, 0x0F, 0xFB] "or [bx], word -5" := by
  decide

theorem test_step_adc :
    prints [0x11, 0xC1] "adc cx, ax" ∧ prints [0x12, 0x0F] "adc cl, [bx]" ∧ prints [0x14, 0x10] "adc al, 16" ∧
    prints [0x15, 0x00, 0x01] "adc ax, 256" ∧ prints [0x80, 0xD2, 0x05] "adc dl, 5" ∧
    prints [0x83, 0x17, 0xFB] "adc [bx], word -5" := by
  decide

theorem test_step_sbb :
    prints [0x19, 0xC1] "sbb cx, ax" ∧ prints [0x1A, 0x0F] "sbb cl, [bx]" ∧ prints [0x1C, 0x10] "sbb al, 16" ∧
    prints [0x1D, 0x00, 0x01] "sbb ax, 256" ∧ prints [0x80, 0xDA, 0x05] "sbb dl, 5" ∧
    prints [0x83, 0x1F, 0xFB] "sbb [bx], word -5" := by
  decide

theorem test_step_and :
    prints [0x21, 0xC1] "and cx, ax" ∧ prints [0x22, 0x0F] "and cl, [bx]" ∧ prints [0x24, 0x10] "and al, 16" ∧
    prints [0x25, 0x00, 0x01] "and ax, 256" ∧ prints [0x80, 0xE2, 0x05] "and dl, 5" ∧
    prints [0x83, 0x27, 0xFB] "and [bx], word -5" := by
  decide

theorem test_step_sub :
    prints [0x29, 0xC1] "sub cx, ax" ∧ prints [0x2A, 0x0F] "sub cl, [bx]" ∧ prints [0x2C, 0x10] "sub al, 16" ∧
    prints [0x2D, 0x00, 0x01] "sub ax, 256" ∧ prints [0x80, 0xEA, 0x05] "sub dl, 5" ∧
    prints [0x83, 0x2F, 0xFB] "sub [bx], word -5" := by
  decide

theorem test_step_xor :
    prints [0x31, 0xC1] "xor cx, ax" ∧ prints [0x32, 0x0F] "xor cl, [bx]" ∧ prints [0x34, 0x10] "xor al, 16" ∧
    prints [0x35, 0x00, 0x01] "xor ax, 256" ∧ prints [0x80, 0xF2, 0x05] "xor dl, 5" ∧
    prints [0x83, 0x37, 0xFB] "xor [bx], word -5" := by
  decide

theorem test_step_cmp :
    prints [0x39, 0xC1] "cmp cx, ax" ∧ prints [0x3A, 0x0F] "cmp cl, [bx]" ∧ prints [0x3C, 0x10] "cmp al, 16" ∧
    prints [0x3D, 0x00, 0x01] "cmp ax, 256" ∧ prints [0x80, 0xFA, 0x05] "cmp dl, 5" ∧
    prints [0x83, 0x3F, 0xFB] "cmp [bx], word -5" := by
  decide

/-- 2.7 -/
theorem test_step_immediates :
    prints [0x82, 0xC3, 0xFF] "add bl, 255" ∧ prints [0x83, 0xC3, 0xFF] "add bx, -1" ∧ prints [0x83, 0xE9, 0x80] "sub cx, -128" ∧
    prints [0x81, 0x7E, 0x00, 0x00, 0x80] "cmp [bp], word -32768" ∧ prints [0x80, 0x3E, 0xE2, 0x12, 0x1D] "cmp [4834], byte 29" := by
  decide

/-- 2.8 -/
theorem test_step_conditional_jumps :
    prints [0x70, 0x01] "jo $+2+1" ∧ prints [0x71, 0xFA] "jno $+2-6" ∧ prints [0x72, 0x10] "jb $+2+16" ∧ prints [0x73, 0xF0] "jnb $+2-16" ∧
    prints [0x74, 0x80] "je $+2-128" ∧ prints [0x75, 0x00] "jne $+0" ∧ prints [0x76, 0x00] "jbe $+0" ∧ prints [0x77, 0x80] "ja $+2-128" ∧
    prints [0x78, 0x03] "js $+2+3" ∧ prints [0x79, 0xFD] "jns $+2-3" ∧ prints [0x7A, 0x2A] "jp $+2+42" ∧ prints [0x7B, 0xD6] "jnp $+2-42" ∧
    prints [0x7C, 0x02] "jl $+2+2" ∧ prints [0x7D, 0xFC] "jnl $+2-4" ∧ prints [0x7E, 0x64] "jle $+2+100" ∧ prints [0x7F, 0xFF] "jg $+2-1" := by
  decide

/-- 2.9 -/
theorem test_step_loops :
    prints [0xE0, 0xFC] "loopnz $+2-4" ∧ prints [0xE1, 0x05] "loopz $+2+5" ∧ prints [0xE2, 0xFA] "loop $+2-6" ∧ prints [0xE3, 0x7F] "jcxz $+2+127" := by
  decide

/-- 2.10 and 2.2: the order of detection too (R187). -/
theorem test_step_unsupported :
    raises [0x06] (.unsupportedOpcode 0x06 0) ∧ raises [0x26, 0x8A, 0x07] (.unsupportedOpcode 0x26 0) ∧ raises [0xC4, 0x06] (.unsupportedOpcode 0xC4 0) ∧
    raises [0x90] (.unsupportedOpcode 0x90 0) ∧ raises [0xC6, 0x08] (.unsupportedOpcode 0xC6 0) ∧ raises [0xC7, 0xD8, 0x01, 0x00] (.unsupportedOpcode 0xC7 0) := by
  decide

/-- 2.13, S12 and S13 -/
theorem test_step_truncated :
    raises [0xC7] (.truncatedInstruction 0) ∧ raises [0xC7, 0x85, 0x85] (.truncatedInstruction 0) ∧
    raises [0xC7, 0x85, 0x85, 0x03, 0x5B] (.truncatedInstruction 0) ∧ raises [0x89] (.truncatedInstruction 0) ∧
    raises [0xC6, 0x40] (.truncatedInstruction 0) ∧ raises [0xE2] (.truncatedInstruction 0) ∧ after [] = some ([], 0, .done) := by
  decide

/-- The canonical form of the stream: rising offsets, no listed 0 (log entry 2). -/
theorem test_memory_is_canonical :
    (State.start [0x8B, 0x00, 0x05]).mem = [(0, 0x8B), (2, 0x05)] ∧ Memory.wf [(2, 1), (0, 1)] = false ∧ Memory.wf [(0, 0)] = false ∧
    Memory.set [(0, 1), (2, 3)] 2 0 = [(0, 1)] ∧ Memory.set [(0, 1), (2, 3)] 1 2 = [(0, 1), (1, 2), (2, 3)] := by
  decide

/-! ### Witnesses: the hypotheses of every statement can be met -/

/-- MemReadChecksTheBound: both sides of each bound, where they meet. -/
theorem witness_MemReadChecksTheBound :
    (State.start [1, 2]).len < 2 + 1 ∧ 1 + 1 ≤ (State.start [1, 2]).len ∧ (State.start [1, 2]).len < 1 + 2 ∧ 0 + 2 ≤ (State.start [1, 2]).len ∧
    (State.start [1, 2]).ip < (State.start [1, 2]).len ∧ (State.start [1]).ip = (at_ 0 [1]).ip ∧ (State.start [1]).out ≠ (at_ 0 [1]).out ∧
    ∀ a, memRead1 (State.start [1]) a = memRead1 (at_ 0 [1]) a :=
  ⟨by decide, by decide, by decide, by decide, by decide, rfl, by decide, fun _ => rfl⟩

/-- StartOfRunHasStartValues, NumberReadings: the ends of the ranges of an offset and of a bit number. -/
theorem witness_ranges : 0 < [0x89#8].length ∧ 0 < 8 ∧ 7 < 8 ∧ 8 ≤ 8 ∧ 8 < 16 ∧ 8 ≤ 15 ∧ 15 < 16 := by decide

theorem witness_RegisterOrMemoryOperandText : 0b10#2 ≠ 0b11#2 ∧ 0b00#2 ≠ 0b11#2 ∧ isMemory (.direct 0) = true ∧ isMemory (.base 6) = true := by decide

/-- EffectiveAddressText and JumpTargetText: each sign, at the ends of its range. -/
theorem witness_signs :
    signed8 0x00 = 0 ∧ 0 < signed8 0x01 ∧ 0 < signed8 0x7F ∧ signed8 0x80 < 0 ∧ signed8 0xFF < 0 ∧
    signed16 0x0000 = 0 ∧ 0 < signed16 0x0001 ∧ 0 < signed16 0x7FFF ∧ signed16 0x8000 < 0 ∧ signed16 0xFFFF < 0 := by
  decide

/-- DecimalTextIsTheNumber: both signs. -/
theorem witness_DecimalTextIsTheNumber : (0 : Int) ≤ 0 ∧ (-1 : Int) < 0 ∧ dec 0 = ['0'] ∧ dec (-32768) = ['-', '3', '2', '7', '6', '8'] := by decide

/-- RendererMakesOneLine: the four cases; the last two arise from instructions. -/
theorem witness_RendererMakesOneLine :
    (Decoded.mk ['x'] [] ['y'] 2).src ≠ [] ∧ (Decoded.mk ['x'] [] ['y'] 2).dst = [] ∧ (Decoded.mk ['x'] [] [] 2).src = [] ∧
    (recordOf (.jump .jo 0)).src = [] ∧ (recordOf (.jump .jo 0)).dst ≠ [] ∧
    (recordOf (.memAcc true .byte 0)).src ≠ [] ∧ (recordOf (.memAcc true .byte 0)).dst ≠ [] := by
  decide

theorem witness_DecodeOfEncode :
    Instr.wellFormed (.movRmImm (.disp16 7 0xFFFF) (.word 0x8000)) = true ∧ Instr.wellFormed (.jo 0x80) = true ∧
    Instr.wellFormed (.cmpRmImm (.base 7) (.byte true 0xFF)) = true := by
  decide

/-- EncodeOfDecode, LengthFollowsTheFirstTwoBytes, TableSelectsTheDecodedRow, AlternativeReadingOfTheOpcode: windows the decoder accepts. -/
theorem witness_decoded :
    decode [0x81, 0x86, 0x00, 0x01, 0x02, 0x03, 0x50] = .ok (.addRmImm (.disp16 6 256) (.word 770), [0x50]) ∧
    decode [0x88, 0xC0] = .ok (.movRmReg .byte (.reg 0) 0, []) ∧
    decode [0x50, 0x00] = .error (.unsupportedOpcode 0x50) := by
  decide

theorem witness_AlternativeReadingOfTheOpcode :
    Rm.wellFormed (.base 0) = true ∧ Imm.unextended (.byte false 1) = true ∧ regField 0x08 ≠ 0b000#3 ∧ regField 0xF8 ≠ 0b000#3 := by
  decide

/-- The statements of completion of the mov and arithmetic/logic families: exactly enough bytes, for every length of operand. -/
theorem witness_two_operand_forms_fit :
    (at_ 0 [0x88, 0xC0]).ip + (2 + (Rm.reg 0).dispLen) ≤ (at_ 0 [0x88, 0xC0]).len ∧
    (at_ 1 [0, 0, 0, 0]).ip + (2 + (Rm.disp8 6 0).dispLen) ≤ (at_ 1 [0, 0, 0, 0]).len ∧
    (at_ 0 [0, 0, 0, 0]).ip + (2 + (Rm.direct 0).dispLen) ≤ (at_ 0 [0, 0, 0, 0]).len ∧
    (at_ 0 [0, 0, 0, 0, 0, 0]).ip + (2 + (Rm.disp16 0 0).dispLen + (Imm.word 0).len) ≤ (at_ 0 [0, 0, 0, 0, 0, 0]).len ∧
    (at_ 0 [0, 0, 0]).ip + (2 + (Rm.base 0).dispLen + (Imm.sext 0).len) ≤ (at_ 0 [0, 0, 0]).len ∧
    (at_ 0 [0, 0]).ip + (1 + (Imm.byte false 0).len) ≤ (at_ 0 [0, 0]).len ∧ (at_ 0 [0, 0, 0]).ip + (1 + (Imm.word 0).len) ≤ (at_ 0 [0, 0, 0]).len := by
  decide

/-- MovAccumulatorFormsComplete, ConditionalJumpsComplete, LoopsComplete: exactly enough bytes. -/
theorem witness_fixed_length_forms_fit : (at_ 0 [0, 0, 0]).ip + 3 ≤ (at_ 0 [0, 0, 0]).len ∧ (at_ 3 [0, 0, 0, 0, 0]).ip + 2 ≤ (at_ 3 [0, 0, 0, 0, 0]).len := by
  decide

/-- InstructionThatDoesNotFitIsTruncated, InstructionFrame: one byte short, and exactly enough. -/
theorem witness_fits_or_not :
    (at_ 0 [0]).len < (at_ 0 [0]).ip + (Instr.jo 0).len ∧ (at_ 0 [0, 0]).ip + (Instr.jo 0).len ≤ (at_ 0 [0, 0]).len ∧
    next (exec (.jo 0) (at_ 0 [0])) ≠ none ∧ next (exec (.jo 0) (at_ 0 [0, 0])) ≠ none := by
  decide

theorem witness_StepRunsTheDecodedInstruction :
    (State.start [0x89, 0xD9]).status = .running ∧ (State.start [0x89, 0xD9]).ip ≠ (State.start [0x89, 0xD9]).len ∧
    decode (window (State.start [0x89, 0xD9]) 6 0) = .ok (.movRmReg .word (.reg 1) 3, []) ∧
    decode (window (State.start [0x06]) 6 0) = .error (.unsupportedOpcode 0x06) ∧
    decode (window (State.start [0x89]) 6 0) = .error .truncated := by
  decide

/-- The statements from bytes to text: a running state below the end whose byte has the pattern, for each pattern. -/
theorem witness_opcode_bytes :
    (State.start [0x88]).status = .running ∧ (State.start [0x88]).ip < (State.start [0x88]).len ∧
    (State.start [0x88]).mem.get 0 = opByte 0b100010#6 false false ∧ (State.start [0x8B]).mem.get 0 = opByte 0b100010#6 true true ∧
    (State.start [0xC7]).mem.get 0 = opByte 0b110001#6 true true ∧
    (State.start [0xBF]).mem.get 0 = (0b1011#4 ++ BitVec.ofBool true ++ 7#3 : BitVec (4 + 1 + 3)) ∧
    (State.start [0xA0]).mem.get 0 = opByte 0b101000#6 false false ∧ (State.start [0xA3]).mem.get 0 = opByte 0b101000#6 true true ∧
    (State.start [0x38]).mem.get 0 = opByte (0b00#2 ++ 7#3 ++ 0b0#1) false false ∧
    (State.start [0x0B]).mem.get 0 = opByte (0b00#2 ++ 1#3 ++ 0b0#1) true true ∧
    (State.start [0x83]).mem.get 0 = opByte 0b100000#6 true true ∧ (State.start [0x3D]).mem.get 0 = opByte (0b00#2 ++ 7#3 ++ 0b1#1) false true ∧
    (State.start [0x7F]).mem.get 0 = (0b0111#4 ++ 15#4 : BitVec (4 + 4)) ∧ (State.start [0xE3]).mem.get 0 = (0b111000#6 ++ 3#2 : BitVec (6 + 2)) := by
  decide

theorem witness_UnsupportedOpcodeHalts :
    (State.start [0xFF]).status = .running ∧ (State.start [0xFF]).ip < (State.start [0xFF]).len ∧ classify ((State.start [0xFF]).mem.get 0) = .unsupported ∧
    (State.start [0xC6, 0x08]).mem.get 0 = 0xC6#8 ∧ (State.start [0xC6, 0x08]).ip + 1 < (State.start [0xC6, 0x08]).len ∧
    regField ((State.start [0xC6, 0x08]).mem.get (0 + 1)) ≠ 0 ∧
    (State.start [0xC7, 0xF8]).mem.get 0 = 0xC7#8 ∧ regField ((State.start [0xC7, 0xF8]).mem.get (0 + 1)) ≠ 0 := by
  decide

/-- The shortest and the longest proper part of a six-byte instruction, the second behind a whole instruction. -/
theorem witness_ProperPartOfAnInstructionIsTruncated :
    (Instr.movRmImm (.disp16 5 901) (.word 347)).wellFormed = true ∧ 1 < (Instr.movRmImm (.disp16 5 901) (.word 347)).len ∧
    5 < (Instr.movRmImm (.disp16 5 901) (.word 347)).len ∧
    (at_ 0 [0xC7]).status = .running ∧ (at_ 0 [0xC7]).len = (at_ 0 [0xC7]).ip + 1 ∧
    (∀ j, j < 1 → (at_ 0 [0xC7]).mem.get (0 + j) = (encode (.movRmImm (.disp16 5 901) (.word 347))).getD j 0#8) ∧
    (at_ 2 [0x88, 0xC0, 0xC7, 0x85, 0x85, 0x03, 0x5B]).len = (at_ 2 [0x88, 0xC0, 0xC7, 0x85, 0x85, 0x03, 0x5B]).ip + 5 ∧
    ∀ j, j < 5 → (at_ 2 [0x88, 0xC0, 0xC7, 0x85, 0x85, 0x03, 0x5B]).mem.get (2 + j) =
      (encode (.movRmImm (.disp16 5 901) (.word 347))).getD j 0#8 := by
  decide

/-- FinishedRunsStayAsTheyAre, PolicyOfTheOutputAfterAFault: the three kinds of status. -/
theorem witness_statuses :
    (State.reset.setStatus .done).status ≠ .running ∧ (State.reset.setStatus .done).status = .done ∧
    (State.reset.setStatus (.fault (.truncatedInstruction 0))).status = .fault (.truncatedInstruction 0) ∧
    State.reset.status = .running ∧ State.reset.ip = State.reset.len ∧ (at_ 2 [0x88, 0xC0]).ip = (at_ 2 [0x88, 0xC0]).len := by
  decide

/-- PolicyOfTheOutputAfterAFault: behind a printed line, a step into a fault and a step into Done. -/
theorem witness_PolicyOfTheOutputAfterAFault :
    (∃ s t : State, core.run 1 (State.start [0x88, 0xC0, 0x50]) = .next s ∧ s.status = .running ∧ s.out ≠ header ∧
      step s = .next t ∧ t.status = .fault (.unsupportedOpcode 0x50 2)) ∧
    ∃ s t : State, core.run 1 (State.start [0x88, 0xC0]) = .next s ∧ s.status = .running ∧ s.out ≠ header ∧
      step s = .next t ∧ t.status = .done :=
  ⟨⟨_, _, rfl, rfl, by decide, rfl, rfl⟩, ⟨_, _, rfl, rfl, by decide, rfl, rfl⟩⟩

/-- ConditionIsPrecise: a step into each of the two conditions. -/
theorem witness_ConditionIsPrecise :
    (∃ t, step (State.start [0x89]) = .next t ∧ t.status = .fault (.truncatedInstruction 0)) ∧
    ∃ t, step (State.start [0x50]) = .next t ∧ t.status = .fault (.unsupportedOpcode 0x50 0) :=
  ⟨⟨_, rfl, rfl⟩, ⟨_, rfl, rfl⟩⟩

/-- InternalConditionsAreUnreachable: only states that have such a status already meet the hypotheses. -/
theorem witness_InternalConditionsAreUnreachable :
    (∃ t, step (State.reset.setStatus (.fault (.invalidAddressingMode 0))) = .next t ∧ t.status = .fault (.invalidAddressingMode 0)) ∧
    ∃ t, step (State.reset.setStatus (.fault (.malformedInstruction 0))) = .next t ∧ t.status = .fault (.malformedInstruction 0) :=
  ⟨⟨_, rfl, rfl⟩, ⟨_, rfl, rfl⟩⟩

/-- The statements over all steps: a step that prints, one that is done, one that faults. -/
theorem witness_steps :
    (∃ t, (State.start [0x88, 0xC0]).status = .running ∧ (State.start [0x88, 0xC0]).ip ≤ (State.start [0x88, 0xC0]).len ∧
      step (State.start [0x88, 0xC0]) = .next t ∧ t.ip ≠ (State.start [0x88, 0xC0]).ip ∧ header <+: (State.start [0x88, 0xC0]).out) ∧
    (∃ t, State.reset.status = .running ∧ State.reset.ip = State.reset.len ∧ step State.reset = .next t) ∧
    (∃ t, step (State.start [0x90]) = .next t) ∧ fitsMaxLen none 2 ∧ fitsMaxLen (some 2) 2 :=
  ⟨⟨_, rfl, by decide, rfl, by decide, List.prefix_rfl⟩, ⟨_, rfl, rfl, rfl⟩, ⟨_, rfl⟩, trivial, Nat.le_refl 2⟩

/-- StepDependsOnSixBytesOnly: streams that differ before and after the six bytes, and different outputs. -/
theorem witness_StepDependsOnSixBytesOnly :
    (at_ 1 [0x90, 0x88, 0xC0, 1, 2, 3, 4, 5]).status = .running ∧ { at_ 1 [0x26, 0x88, 0xC0, 1, 2, 3, 4] with out := header }.status = .running ∧
    (∀ j, 1 ≤ j → j < 1 + 6 → (j < (at_ 1 [0x90, 0x88, 0xC0, 1, 2, 3, 4, 5]).len ↔ j < (at_ 1 [0x26, 0x88, 0xC0, 1, 2, 3, 4]).len)) ∧
    (∀ j, 1 ≤ j → j < 1 + 6 → j < (at_ 1 [0x90, 0x88, 0xC0, 1, 2, 3, 4, 5]).len →
      (at_ 1 [0x90, 0x88, 0xC0, 1, 2, 3, 4, 5]).mem.get j = (at_ 1 [0x26, 0x88, 0xC0, 1, 2, 3, 4]).mem.get j) ∧
    (∃ s' t', step (at_ 1 [0x90, 0x88, 0xC0, 1, 2, 3, 4, 5]) = .next s' ∧
      step { at_ 1 [0x26, 0x88, 0xC0, 1, 2, 3, 4] with out := header } = .next t') ∧
    (at_ 1 [0x90, 0x88, 0xC0, 1, 2, 3, 4, 5]).mem ≠ (at_ 1 [0x26, 0x88, 0xC0, 1, 2, 3, 4]).mem := by
  refine ⟨rfl, rfl, ?_, ?_, ⟨_, _, rfl, rfl⟩, by decide⟩
  · intro j _ h
    have e1 : (at_ 1 [0x90, 0x88, 0xC0, 1, 2, 3, 4, 5]).len = 8 := rfl
    have e2 : (at_ 1 [0x26, 0x88, 0xC0, 1, 2, 3, 4]).len = 7 := rfl
    omega
  · intro j h1 h2 _
    have : j = 1 ∨ j = 2 ∨ j = 3 ∨ j = 4 ∨ j = 5 ∨ j = 6 := by omega
    rcases this with rfl | rfl | rfl | rfl | rfl | rfl <;> rfl

/-- EveryStepKeepsTheInvariant: a state before its first instruction. -/
theorem witness_EveryStepKeepsTheInvariant :
    Inv (State.start [0x89, 0xD9]) ∧ ∃ t, step (State.start [0x89, 0xD9]) = .next t :=
  ⟨{ wf := by decide, within := by decide, bound := by decide, headed := List.prefix_rfl,
     ascii := by simp [State.start, State.reset, header, asciiChar], fits := trivial }, _, rfl⟩

/-- RunsTerminate: at the end, in the middle, at the start. -/
theorem witness_RunsTerminate :
    (at_ 2 [0x88, 0xC0]).ip ≤ (at_ 2 [0x88, 0xC0]).len ∧ (at_ 1 [0x88, 0xC0]).ip ≤ (at_ 1 [0x88, 0xC0]).len ∧ State.reset.ip ≤ State.reset.len := by
  decide

/-- DoneMeansTheStreamIsTiled, ExtendingADecodedStreamKeepsItsOutput: a run of one instruction that is done; FaultLeavesACompletePrefix: a run
that faults behind one instruction. -/
theorem witness_runs :
    (∃ t : State, core.run 2 (State.start [0x88, 0xC0]) = .next t ∧ t.status = .done) ∧
    (∃ t : State, core.run 1 (State.start []) = .next t ∧ t.status = .done) ∧
    ∃ t : State, core.run 2 (State.start [0x88, 0xC0, 0x50]) = .next t ∧ t.status = .fault (.unsupportedOpcode 0x50 2) ∧ t.ip = 2 :=
  ⟨⟨_, rfl, rfl⟩, ⟨_, rfl, rfl⟩, ⟨_, rfl, rfl, rfl⟩⟩

theorem witness_AssembledInstructionsAreListed :
    (∀ i ∈ [Instr.jo 0x80, .movRegImm 3 (.word 0xFFFF)], i.wellFormed = true) ∧ ∀ i ∈ ([] : List Instr), i.wellFormed = true := by
  decide

theorem witness_PlacedWordIsDecodedNext :
    decodeTableWord 16 0x8000 = some (.addRmImm (.base 0) (.byte false 0)) ∧ decodeTableWord 16 0x70FF = some (.jo 0xFF) := by
  decide

end Sys2Proof.Tests
end

section
/-! Proofs for 10_state.md: the register names (R13) and the stream, which no step writes (R11). -/

namespace Sys2Proof.Machine

/-! ### The register names -/

@[simp] theorem regname_length (w : Width) (c : BitVec 3) : (regname w c).length = 2 := by
  cases w with
  | byte => revert c; decide
  | word => revert c; decide

/-- Every letter of a register name lies between `a` (0x61) and `z` (0x7A). The eight codes are checked by the Boolean `List.all`,
which evaluates where the quantifier over members does not. -/
theorem regname_lowercase (w : Width) (c : BitVec 3) : ∀ x ∈ regname w c, 97 ≤ x.toNat ∧ x.toNat ≤ 122 := by
  have hall : (regname w c).all (fun x => decide (97 ≤ x.toNat ∧ x.toNat ≤ 122)) = true := by
    cases w with
    | byte => revert c; decide
    | word => revert c; decide
  exact fun x hx => of_decide_eq_true (List.all_eq_true.mp hall x hx)

/-- Settles O2: each width's clause is its table's, and the eight entries of either table are two lower-case letters. -/
theorem registerNameTableIsTotal : Obligations.RegisterNameTableIsTotal :=
  fun c => ⟨rfl, rfl, fun w => ⟨regname_length w c, regname_lowercase w c⟩⟩

/-! ### The stream -/

/-- The frame of an instruction: complete or truncated, it writes neither `S` nor `N`. -/
theorem exec_keeps_stream {i : Instr} {s t : State} (h : exec i s = .next t) : t.mem = s.mem ∧ t.len = s.len := by
  obtain ⟨-, hcompletes⟩ | ⟨-, hraises⟩ := exec_cases i s
  · cases hcompletes.symm.trans h
    simp
  · cases hraises.symm.trans h
    simp

/-- The frame of a step: staying, ending, raising a condition or executing, it writes neither `S` nor `N`. -/
theorem step_keeps_stream {s t : State} (h : step s = .next t) : t.mem = s.mem ∧ t.len = s.len := by
  obtain ⟨-, hstays⟩ | ⟨-, -, hends⟩ | ⟨-, -, c, -, hraises⟩ | ⟨-, -, i, -, hexec⟩ := step_cases s
  · cases hstays.symm.trans h
    exact ⟨rfl, rfl⟩
  · cases hends.symm.trans h
    simp
  · cases hraises.symm.trans h
    simp
  · exact exec_keeps_stream (hexec.symm.trans h)

/-- Settles O47, from the frame of a step: equal streams read alike at every offset. -/
theorem streamIsNeverWritten : Obligations.StreamIsNeverWritten := by
  intro s t h
  obtain ⟨hmem, hlen⟩ := step_keeps_stream h
  exact ⟨fun a => by rw [hmem], hmem, hlen⟩

end Sys2Proof.Machine
end

section
/-! Proofs for 20_memory.md: `MemRead` (R33). -/

namespace Sys2Proof.Machine

/-- The word of two bytes, low byte first (R31). -/
theorem wordOfBytes_toNat (lo hi : Byte) : (wordOfBytes lo hi).toNat = hi.toNat * 256 + lo.toNat := by
  have hlo : lo.toNat < 2 ^ 8 := lo.isLt
  rw [wordOfBytes, BitVec.toNat_append, ← Nat.shiftLeft_add_eq_or_of_lt hlo, Nat.shiftLeft_eq]

/-! ### The bound -/

theorem memRead1_of_past_end {s : State} {a : Nat} (h : s.len < a + 1) :
    memRead1 s a = .error (.truncatedInstruction s.ip) := if_pos h

theorem memRead1_of_fits {s : State} {a : Nat} (h : a + 1 ≤ s.len) : memRead1 s a = .ok (s.mem.get a) :=
  if_neg (Nat.not_lt.mpr h)

theorem memRead2_of_past_end {s : State} {a : Nat} (h : s.len < a + 2) :
    memRead2 s a = .error (.truncatedInstruction s.ip) := if_pos h

theorem memRead2_of_fits {s : State} {a : Nat} (h : a + 2 ≤ s.len) :
    memRead2 s a = .ok (wordOfBytes (s.mem.get a) (s.mem.get (a + 1))) :=
  if_neg (Nat.not_lt.mpr h)

/-! ### The only access to `S` -/

/-- The window reads the stream by `MemRead` alone. -/
theorem window_eq_of_memRead1_eq {s t : State} (h : ∀ a, memRead1 s a = memRead1 t a) :
    ∀ k a, window s k a = window t k a
  | 0, _ => rfl
  | k + 1, a => by simp only [window, h a, window_eq_of_memRead1_eq h k (a + 1)]

/-- The instruction fetched is the window's, and a refusal carries `ip`. -/
theorem fetch_eq_of_memRead1_eq {s t : State} (hip : s.ip = t.ip) (h : ∀ a, memRead1 s a = memRead1 t a) :
    fetch s = fetch t := by
  rw [fetch, fetch, hip, window_eq_of_memRead1_eq h]

/-- Settles O4: the two sides of each bound, and the fetch through the window. -/
theorem memReadChecksTheBound : Obligations.MemReadChecksTheBound :=
  ⟨fun s a => ⟨memRead1_of_past_end, memRead1_of_fits, memRead2_of_past_end,
      fun h => ⟨_, memRead2_of_fits h, wordOfBytes_toNat (s.mem.get a) (s.mem.get (a + 1))⟩⟩,
    fun _ h => ⟨_, memRead1_of_fits h⟩,
    fun _ _ => fetch_eq_of_memRead1_eq⟩

end Sys2Proof.Machine
end

section
/-! Proofs for 30_encoding.md: what the decoder reads and how many bytes it takes (R54). -/

namespace Sys2Proof

/-! ### What the readers answer -/

/-- A sequence that succeeds, succeeds in its first part and then in the rest. -/
theorem bind_ok {α β : Type} {x : Except Reject α} {f : α → Except Reject β} {b : β}
    (h : x >>= f = .ok b) : ∃ a, x = .ok a ∧ f a = .ok b := by
  cases x with
  | error e => cases h
  | ok a => exact ⟨a, rfl, h⟩

/-- The operand is the one the fields `mod` and `rm` spell: they are its fields, and it names no base 110. -/
structure Rm.SpeltBy (o : Rm) (mod : BitVec 2) (rm : BitVec 3) : Prop where
  modBits : o.modBits = mod
  rmBits : o.rmBits = rm
  wellFormed : o.wellFormed = true

/-- The displacement bytes of an operand are as many as `dlen` of its fields. -/
theorem Rm.SpeltBy.dispLen_eq {o : Rm} {mod : BitVec 2} {rm : BitVec 3} (h : o.SpeltBy mod rm) :
    o.dispLen = dlen mod rm := by
  obtain ⟨rfl, rfl, hwf⟩ := h
  cases o with
  | base r =>
    have hr : r ≠ 6#3 := by simpa [Rm.wellFormed] using hwf
    simp [Rm.dispLen, Rm.modBits, Rm.rmBits, dlen, hr]
  | _ => rfl

/-- A `mod` field that is none of 11, 00 and 01 is 10. -/
theorem mod_eq_two : ∀ mod : BitVec 2, mod ≠ 0b11#2 → mod ≠ 0b00#2 → mod ≠ 0b01#2 → 0b10#2 = mod := by decide

/-- The converse of `resolveRm_encoded`. -/
theorem resolveRm_ok {mod : BitVec 2} {rm : BitVec 3} {bs : List Byte} {o : Rm} {r : List Byte}
    (h : resolveRm mod rm bs = .ok (o, r)) : o.SpeltBy mod rm ∧ bs = o.dispBytes ++ r := by
  unfold resolveRm resolveEa at h
  split_ifs at h with h11 h00 h110 h01
  · cases h
    exact ⟨⟨h11.symm, rfl, rfl⟩, rfl⟩
  · obtain ⟨⟨a, r'⟩, ha, h⟩ := bind_ok h
    cases h
    exact ⟨⟨h00.symm, h110.symm, rfl⟩, takeWord_ok ha⟩
  · cases h
    exact ⟨⟨h00.symm, rfl, by simpa [Rm.wellFormed] using h110⟩, rfl⟩
  · obtain ⟨⟨d, r'⟩, hd, h⟩ := bind_ok h
    cases h
    exact ⟨⟨h01.symm, rfl, rfl⟩, takeByte_ok hd⟩
  · obtain ⟨⟨d, r'⟩, hd, h⟩ := bind_ok h
    cases h
    exact ⟨⟨mod_eq_two mod h11 h00 h01, rfl, rfl⟩, takeWord_ok hd⟩

/-- The converse of `resolveImm_encoded`. -/
theorem resolveImm_ok {s : Bool} {w : Width} {bs : List Byte} {imm : Imm} {r : List Byte}
    (h : resolveImm s w bs = .ok (imm, r)) : (imm.s = s ∧ imm.width = w) ∧ bs = imm.bytes ++ r := by
  match w, s, h with
  | .byte, s, h =>
    obtain ⟨⟨b, r'⟩, hb, h⟩ := bind_ok h
    cases h
    exact ⟨⟨rfl, rfl⟩, takeByte_ok hb⟩
  | .word, true, h =>
    obtain ⟨⟨b, r'⟩, hb, h⟩ := bind_ok h
    cases h
    exact ⟨⟨rfl, rfl⟩, takeByte_ok hb⟩
  | .word, false, h =>
    obtain ⟨⟨v, r'⟩, hv, h⟩ := bind_ok h
    cases h
    exact ⟨⟨rfl, rfl⟩, takeWord_ok hv⟩

/-- The length of an immediate is `ilen` of its flags. -/
theorem Imm.len_eq {imm : Imm} {s : Bool} {w : Width} (h : imm.s = s ∧ imm.width = w) : imm.len = ilen s w := by
  rw [Imm.len, h.1, h.2]

/-! ### What the decoder answers -/

/-- All an answer of the decoder can be: the opcode byte `b0` gives the shape, and the bytes `bs` after it are those the shape
holds (R53, R55), followed by `rest`. -/
inductive Reads (b0 : Byte) (bs rest : List Byte) : Form → Prop where
  | rmReg {op : Op} {d : Bool} {w : Width} {b1 : Byte} {rm : Rm} (hclass : classify b0 = .rmReg op d w)
      (hrm : rm.SpeltBy (modField b1) (rmField b1)) (hbytes : bs = b1 :: (rm.dispBytes ++ rest)) :
      Reads b0 bs rest (.rmReg op d w rm (regField b1))
  | immAcc {op : AluOp} {s : Bool} {w : Width} {imm : Imm} (hclass : classify b0 = .immAcc op s w)
      (himm : imm.s = s ∧ imm.width = w) (hbytes : bs = imm.bytes ++ rest) : Reads b0 bs rest (.immAcc op imm)
  | aluImmRm {s : Bool} {w : Width} {b1 : Byte} {rm : Rm} {imm : Imm} (hclass : classify b0 = .aluImmRm s w)
      (hrm : rm.SpeltBy (modField b1) (rmField b1)) (himm : imm.s = s ∧ imm.width = w)
      (hbytes : bs = b1 :: (rm.dispBytes ++ (imm.bytes ++ rest))) :
      Reads b0 bs rest (.immRm (.alu (AluOp.ofCode (regField b1))) rm imm)
  | movImmRm {w : Width} {b1 : Byte} {rm : Rm} {imm : Imm} (hclass : classify b0 = .movImmRm w)
      (hreg : regField b1 = 0b000#3) (hrm : rm.SpeltBy (modField b1) (rmField b1))
      (himm : imm.s = false ∧ imm.width = w) (hbytes : bs = b1 :: (rm.dispBytes ++ (imm.bytes ++ rest))) :
      Reads b0 bs rest (.immRm .mov rm imm)
  | immReg {w : Width} {reg : BitVec 3} {imm : Imm} (hclass : classify b0 = .immReg w reg)
      (himm : imm.s = false ∧ imm.width = w) (hbytes : bs = imm.bytes ++ rest) : Reads b0 bs rest (.immReg reg imm)
  | memAcc {d : Bool} {w : Width} {a : Word} (hclass : classify b0 = .memAcc d w)
      (hbytes : bs = wordBytes a ++ rest) : Reads b0 bs rest (.memAcc d w a)
  | jump {cc : Jcc} {r : Byte} (hclass : classify b0 = .jump cc) (hbytes : bs = r :: rest) : Reads b0 bs rest (.jump cc r)
  | loop {lp : LoopOp} {r : Byte} (hclass : classify b0 = .loop lp) (hbytes : bs = r :: rest) :
      Reads b0 bs rest (.loop lp r)

/-- The decoder answers an instruction by its form. -/
theorem decodeFormWith_of_decode {bs : List Byte} {i : Instr} {rest : List Byte} (h : decode bs = .ok (i, rest)) :
    decodeFormWith Config.strictMatch bs = .ok (i.form, rest) := by
  unfold decode decodeWith at h
  cases hf : decodeFormWith Config.strictMatch bs with
  | error e => rw [hf] at h; cases h
  | ok p =>
    rw [hf] at h
    cases h
    rw [Machine.form_toInstr]

/-- An instruction is read as the shape its opcode byte classifies to; each reader on the way has answered. -/
theorem reads_of_decode {b0 : Byte} {bs : List Byte} {i : Instr} {rest : List Byte}
    (h : decode (b0 :: bs) = .ok (i, rest)) : Reads b0 bs rest i.form := by
  replace h := decodeFormWith_of_decode h
  generalize i.form = f at h ⊢
  simp only [decodeFormWith] at h
  rw [show classifyWith Config.strictMatch b0 = classify b0 from rfl] at h
  cases hclass : classify b0 <;> simp only [hclass] at h
  case rmReg op d w =>
    obtain ⟨⟨b1, r1⟩, hb1, h⟩ := bind_ok h
    obtain ⟨⟨rm, r2⟩, hrm, h⟩ := bind_ok h
    cases h
    obtain ⟨hspelt, rfl⟩ := resolveRm_ok hrm
    exact .rmReg hclass hspelt (takeByte_ok hb1)
  case immAcc op s w =>
    obtain ⟨⟨imm, r1⟩, himm, h⟩ := bind_ok h
    cases h
    obtain ⟨hflags, hbytes⟩ := resolveImm_ok himm
    exact .immAcc hclass hflags hbytes
  case aluImmRm s w =>
    obtain ⟨⟨b1, r1⟩, hb1, h⟩ := bind_ok h
    obtain ⟨⟨rm, r2⟩, hrm, h⟩ := bind_ok h
    obtain ⟨⟨imm, r3⟩, himm, h⟩ := bind_ok h
    cases h
    obtain ⟨hspelt, rfl⟩ := resolveRm_ok hrm
    obtain ⟨hflags, rfl⟩ := resolveImm_ok himm
    exact .aluImmRm hclass hspelt hflags (takeByte_ok hb1)
  case movImmRm w =>
    obtain ⟨⟨b1, r1⟩, hb1, h⟩ := bind_ok h
    simp only at h
    split at h
    · cases h
    · rename_i hreg
      obtain ⟨⟨rm, r2⟩, hrm, h⟩ := bind_ok h
      obtain ⟨⟨imm, r3⟩, himm, h⟩ := bind_ok h
      cases h
      obtain ⟨hspelt, rfl⟩ := resolveRm_ok hrm
      obtain ⟨hflags, rfl⟩ := resolveImm_ok himm
      exact .movImmRm hclass (not_not.mp fun hne => hreg ⟨hne, rfl⟩) hspelt hflags (takeByte_ok hb1)
  case immReg w reg =>
    obtain ⟨⟨imm, r1⟩, himm, h⟩ := bind_ok h
    cases h
    obtain ⟨hflags, hbytes⟩ := resolveImm_ok himm
    exact .immReg hclass hflags hbytes
  case memAcc d w =>
    obtain ⟨⟨a, r1⟩, ha, h⟩ := bind_ok h
    cases h
    exact .memAcc hclass (takeWord_ok ha)
  case jump cc =>
    obtain ⟨⟨r, r1⟩, hr, h⟩ := bind_ok h
    cases h
    exact .jump hclass (takeByte_ok hr)
  case loop lp =>
    obtain ⟨⟨r, r1⟩, hr, h⟩ := bind_ok h
    cases h
    exact .loop hclass (takeByte_ok hr)
  case unsupported => cases h

/-! ### Lengths -/

open Laws.LengthIsEncoded (rm_length imm_length)

/-- The decoder takes as many bytes as the form is long, the opcode byte among them. -/
theorem Reads.length_eq {b0 : Byte} {bs rest : List Byte} {f : Form} (h : Reads b0 bs rest f) :
    rest.length + f.len = bs.length + 1 := by
  cases h <;> subst bs <;>
    simp only [Form.len, List.length_cons, List.length_append, List.length_nil, wordBytes, rm_length, imm_length] <;> omega

end Sys2Proof

namespace Sys2Proof.Machine

/-- Settles O16, from what the decoder can answer: each shape's length is read off its form, and its bytes are counted. The
shortest instruction is a jump, the longest an immediate word moved to memory with a 16-bit displacement. -/
theorem lengthFollowsTheFirstTwoBytes : Obligations.LengthFollowsTheFirstTwoBytes := by
  refine ⟨fun b0 b1 bs i rest h => ?_, fun rm => ⟨rfl, rfl, rfl, rfl⟩, fun s => rfl, rfl, rfl,
    ⟨.jo 0, rfl, rfl⟩, ⟨.movRmImm (.disp16 5 901) (.word 347), rfl, rfl⟩⟩
  have hreads := reads_of_decode h
  obtain ⟨hshort, hlong⟩ := Instr.len_bounds i
  refine ⟨?_, hshort, hlong, hreads.length_eq⟩
  rw [Instr.len]
  generalize i.form = f at hreads ⊢
  cases hreads with
  | rmReg hclass hrm hbytes =>
    cases hbytes
    rw [hclass, Form.len, hrm.dispLen_eq]
  | immAcc hclass himm => rw [hclass, Form.len, Imm.len_eq himm]
  | aluImmRm hclass hrm himm hbytes =>
    cases hbytes
    rw [hclass, Form.len, hrm.dispLen_eq, Imm.len_eq himm]
  | movImmRm hclass _ hrm himm hbytes =>
    cases hbytes
    rw [hclass, Form.len, hrm.dispLen_eq, Imm.len_eq himm]
  | immReg hclass himm => rw [hclass, Form.len, Imm.len_eq himm]
  | memAcc hclass => rw [hclass, Form.len]
  | jump hclass => rw [hclass, Form.len]
  | loop hclass => rw [hclass, Form.len]

end Sys2Proof.Machine
end

section
/-! Proofs for 40_operand_resolvers.md: the texts of the operands (R83, R91, R94), the renderer (R97) and what the line of an
instruction depends on (R103). -/

namespace Sys2Proof.Machine

/-! ### The register-or-memory operand (R83) -/

theorem resolveRm_register (rm : BitVec 3) (bs : List Byte) : resolveRm 0b11#2 rm bs = .ok (.reg rm, bs) := rfl

theorem resolveRm_memory {mod : BitVec 2} (rm : BitVec 3) (bs : List Byte) (h : mod ≠ 0b11#2) :
    resolveRm mod rm bs = resolveEa mod rm bs := if_neg h

/-- Settles O7: `mod` selects the reader, and the width reaches the text of a register alone. -/
theorem registerOrMemoryOperandText : Obligations.RegisterOrMemoryOperandText := by
  refine ⟨resolveRm_register, fun _ => resolveRm_memory, fun w c => ⟨rfl, rfl⟩, fun rm hmem => ?_⟩
  cases rm with
  | reg c => cases hmem
  | direct a => rfl
  | base r => rfl
  | disp8 r d => rfl
  | disp16 r d => rfl

/-! ### Signed values and their decimals (R8) -/

theorem dec_of_nonneg {z : Int} (h : 0 ≤ z) : dec z = decNat z.natAbs := if_neg (Int.not_lt.mpr h)

theorem signed8_eq_toInt (b : Byte) : signed8 b = b.toInt := by
  rw [signed8, BitVec.toInt_eq_toNat_cond]
  split_ifs <;> omega

theorem signed16_eq_toInt (v : Word) : signed16 v = v.toInt := by
  rw [signed16, BitVec.toInt_eq_toNat_cond]
  split_ifs <;> omega

/-- A byte is below the sign bit of the word it is zero-extended to. -/
theorem signed16_zext16 (b : Byte) : signed16 (zext16 b) = b.toNat := by
  have hzext : (zext16 b).toNat = b.toNat := BitVec.toNat_setWidth_of_le (by decide)
  have hbyte : b.toNat < 256 := b.isLt
  rw [signed16, hzext, if_pos (by omega)]

/-- The sign extension keeps the signed value. -/
theorem signed16_sext16 (b : Byte) : signed16 (sext16 b) = signed8 b := by
  rw [signed16_eq_toInt, signed8_eq_toInt]
  exact BitVec.toInt_signExtend_of_le (by decide)

/-! ### The immediate (R91) -/

theorem immText_byte (s : Bool) (b : Byte) : immText (.byte s b) = decNat b.toNat := by
  rw [immText, immValue, signed16_zext16, dec_of_nonneg (Int.natCast_nonneg _), Int.natAbs_natCast]

theorem immText_sext (b : Byte) : immText (.sext b) = dec (signed8 b) := by
  rw [immText, immValue, signed16_sext16]

/-- Every immediate has a first byte. -/
theorem resolveImm_nil (s : Bool) (w : Width) : resolveImm s w [] = .error .truncated := by
  match w, s with
  | .byte, _ => rfl
  | .word, true => rfl
  | .word, false => rfl

/-- Settles O9: each of the three cases reads its bytes, and the values of the two extensions give the decimals. -/
theorem immediateText : Obligations.ImmediateText :=
  ⟨fun s b _ => ⟨rfl, immText_byte s b⟩, fun b _ => ⟨rfl, immText_sext b⟩,
    fun lo hi _ => ⟨rfl, wordOfBytes_toNat lo hi, rfl⟩, resolveImm_nil, fun _ => rfl⟩

/-! ### The jump target (R94) -/

theorem targetText_of_pos {r : Byte} (h : 0 < signed8 r) :
    targetText r = ['$', '+', '2', '+'] ++ decNat (signed8 r).natAbs := by
  simp only [targetText, if_pos h, dec_of_nonneg h.le]

theorem targetText_of_neg {r : Byte} (h : signed8 r < 0) :
    targetText r = ['$', '+', '2', '-'] ++ decNat (signed8 r).natAbs := by
  simp only [targetText, if_neg h.not_gt, if_pos h]

theorem targetText_of_zero {r : Byte} (h : signed8 r = 0) : targetText r = ['$', '+', '0'] := by
  simp only [targetText, h, lt_irrefl, if_false]

/-- Settles O10, by the sign of the displacement. -/
theorem jumpTargetText : Obligations.JumpTargetText :=
  fun _ => ⟨targetText_of_pos, targetText_of_neg, targetText_of_zero⟩

/-! ### The renderer (R97) -/

theorem render_of_src_without_dst (ip : Nat) {d : Decoded} (hsrc : d.src ≠ []) (hdst : d.dst = []) :
    render ip d = .error (.malformedInstruction ip) := if_pos ⟨hsrc, hdst⟩

theorem render_of_mnemonic_alone (ip : Nat) {d : Decoded} (hsrc : d.src = []) (hdst : d.dst = []) :
    render ip d = .ok (d.mn ++ ['\n']) := by
  simp [render, hsrc, hdst]

/-- Settles O11: the two cases without a destination, and the renderer on a record with one. -/
theorem rendererMakesOneLine : Obligations.RendererMakesOneLine := by
  refine ⟨fun ip d => ⟨render_of_src_without_dst ip, render_of_mnemonic_alone ip, fun hsrc hdst => ?_, fun hsrc hdst => ?_⟩,
    recordOf_dst_ne⟩
  · rw [render_of_dst ip d hdst, if_pos hsrc, List.append_nil]
  · rw [render_of_dst ip d hdst, if_neg hsrc, ← List.append_assoc]

/-! ### What a step depends on (R103) -/

/-- Two states stand before the same six bytes: at the same `ip` within either stream, the streams have the same offsets from
`ip` to `ip + 5` and the same bytes there. -/
structure SameSixBytes (s t : State) : Prop where
  ip_eq : s.ip = t.ip
  left_le : s.ip ≤ s.len
  right_le : t.ip ≤ t.len
  offsets : ∀ j, s.ip ≤ j → j < s.ip + 6 → (j < s.len ↔ j < t.len)
  bytes : ∀ j, s.ip ≤ j → j < s.ip + 6 → j < s.len → s.mem.get j = t.mem.get j

/-- The two steps move to the same `ip` and status and append the same text. -/
def SameEffect (s t s' t' : State) : Prop :=
  s'.ip = t'.ip ∧ s'.status = t'.status ∧ ∃ added, s'.out = s.out ++ added ∧ t'.out = t.out ++ added

theorem SameEffect.setStatus {s t : State} (hip : s.ip = t.ip) (st : Status) :
    SameEffect s t (s.setStatus st) (t.setStatus st) :=
  ⟨hip, rfl, [], (List.append_nil _).symm, (List.append_nil _).symm⟩

theorem SameEffect.advance {s t : State} (hip : s.ip = t.ip) (hstatus : s.status = t.status) (line : Text) (n : Nat) :
    SameEffect s t (s.advance line n) (t.advance line n) :=
  ⟨congrArg (· + n) hip, hstatus, line, rfl, rfl⟩

/-- The offset `ip` itself tells whether the stream is at its end. -/
theorem SameSixBytes.at_end_iff {s t : State} (h : SameSixBytes s t) : s.ip = s.len ↔ t.ip = t.len := by
  obtain ⟨hip, hs, ht, hoffsets, -⟩ := h
  have hfirst := hoffsets s.ip (by omega) (by omega)
  omega

/-- The offset of an instruction's last byte tells whether the instruction fits into the stream. -/
theorem SameSixBytes.fits_iff {s t : State} (h : SameSixBytes s t) (i : Instr) :
    s.ip + i.len ≤ s.len ↔ t.ip + i.len ≤ t.len := by
  obtain ⟨hshort, hlong⟩ := Instr.len_bounds i
  have hlast := h.offsets (s.ip + i.len - 1) (by omega) (by omega)
  have hip := h.ip_eq
  omega

theorem SameSixBytes.fetch_eq {s t : State} (h : SameSixBytes s t) : fetch s = fetch t := by
  rw [fetch, fetch, ← h.ip_eq, window_congr s t maxLen s.ip h.offsets h.bytes]

/-- The same instruction completes in both states or is truncated in both. -/
theorem SameSixBytes.exec_effect {s t s' t' : State} (h : SameSixBytes s t) (hstatus : s.status = t.status) (i : Instr)
    (hs : exec i s = .next s') (ht : exec i t = .next t') : SameEffect s t s' t' := by
  have hfits := h.fits_iff i
  obtain ⟨hsfits, hscompletes⟩ | ⟨hslong, hsraises⟩ := exec_cases i s
  · cases hscompletes.symm.trans hs
    cases (exec_of_fits i t (hfits.mp hsfits)).symm.trans ht
    exact .advance h.ip_eq hstatus (lineOf i) i.len
  · cases hsraises.symm.trans hs
    obtain ⟨htfits, -⟩ | ⟨-, htraises⟩ := exec_cases i t
    · omega
    · cases htraises.symm.trans ht
      rw [← h.ip_eq]
      exact .setStatus h.ip_eq _

theorem step_at_end {s : State} (hrun : s.status = .running) (hend : s.ip = s.len) :
    step s = .next (s.setStatus .done) := by
  simp [step, hrun, hend, finish]

theorem step_of_fetch_error {s : State} {c : Condition} (hrun : s.status = .running) (hinside : s.ip ≠ s.len)
    (hfetch : fetch s = .error c) : step s = .next (s.setStatus (.fault c)) := by
  simp [step, hrun, hinside, hfetch, raise]

theorem step_of_fetch_ok {s : State} {i : Instr} (hrun : s.status = .running) (hinside : s.ip ≠ s.len)
    (hfetch : fetch s = .ok i) : step s = exec i s := by
  simp [step, hrun, hinside, hfetch]

/-- Both steps end the run, raise the same condition or execute the same instruction: the offsets and bytes from `ip` on decide
which. -/
theorem SameSixBytes.step_effect {s t s' t' : State} (h : SameSixBytes s t) (hsrun : s.status = .running)
    (htrun : t.status = .running) (hs : step s = .next s') (ht : step t = .next t') : SameEffect s t s' t' := by
  obtain ⟨hover, -⟩ | ⟨-, hend, hsends⟩ | ⟨-, hinside, c, hfetch, hsraises⟩ | ⟨-, hinside, i, hfetch, hsexec⟩ := step_cases s
  · exact absurd hsrun hover
  · cases hsends.symm.trans hs
    cases (step_at_end htrun (h.at_end_iff.mp hend)).symm.trans ht
    exact .setStatus h.ip_eq .done
  · cases hsraises.symm.trans hs
    cases (step_of_fetch_error htrun (mt h.at_end_iff.mpr hinside) (h.fetch_eq ▸ hfetch)).symm.trans ht
    exact .setStatus h.ip_eq (.fault c)
  · have htexec := step_of_fetch_ok htrun (mt h.at_end_iff.mpr hinside) (h.fetch_eq ▸ hfetch)
    exact h.exec_effect (hsrun.trans htrun.symm) i (hsexec.symm.trans hs) (htexec.symm.trans ht)

/-- Settles O52: two states before the same six bytes take the same step, and `step` is a function. -/
theorem stepDependsOnSixBytesOnly : Obligations.StepDependsOnSixBytesOnly := by
  refine ⟨fun s t s' t' hsrun htrun hip hsle htle hoffsets hbytes hs ht => ?_, fun s t u ht hu => ?_⟩
  · exact SameSixBytes.step_effect ⟨hip, hsle, htle, hoffsets, hbytes⟩ hsrun htrun hs ht
  · cases ht.symm.trans hu
    rfl

end Sys2Proof.Machine
end

section
/-! Proofs for 41_mov.md: what the readers of a window answer is what the pseudocode reads at absolute offsets (R33, R83, R86), a
step concludes with the record of the instruction it fetches (R100), and so `mov` between a register and a register or memory
operand goes from its bytes to its line as R110 and R111 write it. -/

namespace Sys2Proof.Machine

/-! ### Window readers and reads at an absolute offset -/

/-- What a reader of the window answers, as the pseudocode answers it: the value under `f` without the rest of the window, or the
condition the refusal raises. -/
def answer {α β : Type} (s : State) (f : α → β) : Except Reject (α × List Byte) → Except Condition β
  | .ok (a, _) => .ok (f a)
  | .error r => .error (conditionOf s.ip r)

theorem fetch_eq_answer (s : State) : fetch s = answer s id (decode (window s maxLen s.ip)) := by
  unfold fetch answer
  cases decode (window s maxLen s.ip) <;> rfl

theorem window_of_past_end {s : State} {a : Nat} (h : s.len ≤ a) (k : Nat) : window s (k + 1) a = [] := by
  rw [window_succ, if_neg (Nat.not_lt.mpr h)]

theorem window_of_inside {s : State} {a : Nat} (h : a < s.len) (k : Nat) :
    window s (k + 1) a = s.mem.get a :: window s k (a + 1) := by
  rw [window_succ, if_pos h]

/-- `MemRead(addr, 1)` (R33) by the window at `addr`. -/
theorem memRead1_eq_answer (s : State) (k a : Nat) : memRead1 s a = answer s id (takeByte (window s (k + 1) a)) := by
  by_cases h : a < s.len
  · rw [memRead1_of_fits h, window_of_inside h]
    rfl
  · rw [memRead1_of_past_end (by omega), window_of_past_end (by omega)]
    rfl

/-- `MemRead(addr, 2)` (R33) by the window at `addr`: where only one byte is left, neither answers a word. -/
theorem memRead2_eq_answer (s : State) (k a : Nat) : memRead2 s a = answer s id (takeWord (window s (k + 2) a)) := by
  by_cases h : a < s.len
  · by_cases h' : a + 1 < s.len
    · rw [memRead2_of_fits h', window_of_inside h, window_of_inside h']
      rfl
    · rw [memRead2_of_past_end (by omega), window_of_inside h, window_of_past_end (by omega)]
      rfl
  · rw [memRead2_of_past_end (by omega), window_of_past_end (by omega)]
    rfl

/-! ### The register-or-memory operand (R83, R86) -/

/-- The operand of a reader's answer as the pseudocode gives it: its text and the number of its displacement bytes. -/
def rmAnswer (w : Width) (rm : Rm) : Text × Nat := (rmText w rm, rm.dispLen)

/-- The text the pseudocode makes of a base and a displacement. -/
theorem displacementText_eq_baseText (base : Text) (disp : Int) (n : Nat) :
    (if disp = 0 then return (['['] ++ base ++ [']'], n)
     else if disp > 0 then return (['['] ++ base ++ [' ', '+', ' '] ++ dec disp ++ [']'], n)
     else return (['['] ++ base ++ [' ', '-', ' '] ++ dec disp.natAbs ++ [']'], n) : Except Condition (Text × Nat)) =
      .ok (baseText base disp, n) := by
  rw [baseText, dec_of_nonneg (Int.natCast_nonneg _), Int.natAbs_natCast]
  split_ifs <;> rfl

/-- A direct address is printed unsigned (92 D8). -/
theorem addrText_eq_dec (a : Word) : addrText a = ['['] ++ dec a.toNat ++ [']'] := by
  rw [dec_of_nonneg (Int.natCast_nonneg _), Int.natAbs_natCast]
  rfl

/-- R86 by the window at `a`, mode by mode; the width does not reach the text of a memory operand. -/
theorem ea_eq_answer (s : State) (mod : BitVec 2) (rm : BitVec 3) (w : Width) (k a : Nat) :
    Pseudocode.ea s mod rm a = answer s (rmAnswer w) (resolveEa mod rm (window s (k + 2) a)) := by
  unfold Pseudocode.ea resolveEa
  simp only [displacementText_eq_baseText, memRead1_eq_answer s (k + 1) a, memRead2_eq_answer s k a]
  by_cases h11 : mod = 0b11#2
  · subst h11
    rfl
  by_cases h00 : mod = 0b00#2
  · subst h00
    by_cases h110 : rm = 0b110#3
    · subst h110
      cases takeWord (window s (k + 2) a) with
      | error r => rfl
      | ok p => simp [answer, rmAnswer, rmText, addrText_eq_dec, Rm.dispLen]
    · simp only [h110, and_false, if_false]
      rfl
  by_cases h01 : mod = 0b01#2
  · subst h01
    cases takeByte (window s (k + 2) a) <;> rfl
  · simp only [h11, h00, h01, false_and, if_false]
    cases takeWord (window s (k + 2) a) <;> rfl

/-- R83 by the window at `a`: a register reads nothing, every other operand is the resolver's. -/
theorem rmoperand_eq_answer (s : State) (mod : BitVec 2) (rm : BitVec 3) (w : Width) (k a : Nat) :
    Pseudocode.rmoperand s mod rm w a = answer s (rmAnswer w) (resolveRm mod rm (window s (k + 2) a)) := by
  by_cases h : mod = 0b11#2
  · subst h
    rfl
  · rw [Pseudocode.rmoperand, if_neg h, resolveRm_memory rm _ h, ea_eq_answer]

/-! ### A step concludes with the record of the fetched instruction (R100) -/

/-- An instruction that was fetched fits into the stream: its bytes are in the window, and the window ends with the stream. -/
theorem fetch_fits {s : State} {i : Instr} (h : fetch s = .ok i) : s.ip + i.len ≤ s.len := by
  rw [fetch_eq_answer] at h
  cases hdecode : decode (window s maxLen s.ip) with
  | error r => rw [hdecode] at h; cases h
  | ok p =>
    obtain ⟨j, rest⟩ := p
    rw [hdecode] at h
    obtain rfl : j = i := Except.ok.inj h
    have hwindow := window_length s maxLen s.ip
    cases hbytes : window s maxLen s.ip with
    | nil => rw [hbytes] at hdecode; cases hdecode
    | cons b0 bs =>
      rw [hbytes] at hdecode hwindow
      have hread : rest.length + j.len = bs.length + 1 := (reads_of_decode hdecode).length_eq
      rw [List.length_cons] at hwindow
      omega

/-- The record of the instruction fetched, by the form the decoder reads from the window. -/
theorem fetch_record_eq_answer (s : State) : ((fetch s).map fun i => recordOf i.form) =
    answer s recordOf (decodeFormWith Config.strictMatch (window s maxLen s.ip)) := by
  rw [fetch_eq_answer, decode, decodeWith]
  cases decodeFormWith Config.strictMatch (window s maxLen s.ip) with
  | error r => rfl
  | ok p => exact congrArg (fun f => Except.ok (recordOf f)) (form_toInstr p.1)

/-- Concluding with the record of an instruction completes it: its line is printed and `ip` moves on by its length. -/
theorem conclude_recordOf (s : State) (i : Instr) :
    Pseudocode.conclude s (.ok (recordOf i.form)) = s.advance (lineOf i) i.len := by
  simp only [Pseudocode.conclude, bind, Except.bind, render_recordOf, recordOf_len]
  rfl

/-- Inside the stream a step concludes with the record of the instruction fetched, or with the condition of its refusal. -/
theorem step_eq_conclude {s : State} (hrun : s.status = .running) (hinside : s.ip ≠ s.len) :
    step s = .next (Pseudocode.conclude s ((fetch s).map fun i => recordOf i.form)) := by
  cases hfetch : fetch s with
  | error c => exact step_of_fetch_error hrun hinside hfetch
  | ok i =>
    rw [step_of_fetch_ok hrun hinside hfetch, exec_of_fits i s (fetch_fits hfetch), Except.map, conclude_recordOf]

/-! ### The shape RM_REG (R104), `mov` among it (R110, R111) -/

/-- The classification takes direction and width of shape RM_REG from their bits of the opcode byte (R51). -/
theorem classify_rmReg_fields {b0 : Byte} {op : Op} {d : Bool} {w : Width} (h : classify b0 = .rmReg op d w) :
    d = b0.getLsbD 1 ∧ w = wField b0 := by
  unfold classify classifyWith at h
  split_ifs at h <;> cases h <;> exact ⟨rfl, rfl⟩

/-- The record of shape RM_REG is the one R104 makes with reads at absolute offsets. -/
theorem fetch_rmReg {s : State} {op : Op} {d : Bool} {w : Width} (hinside : s.ip < s.len)
    (hclass : classify (s.mem.get s.ip) = .rmReg op d w) :
    ((fetch s).map fun i => recordOf i.form) = Pseudocode.shapeRmReg s (opName op) (s.mem.get s.ip) := by
  obtain ⟨hd, hw⟩ := classify_rmReg_fields hclass
  replace hclass : classifyWith Config.strictMatch (s.mem.get s.ip) = .rmReg op d w := hclass
  rw [fetch_record_eq_answer, maxLen, window_of_inside hinside, decodeFormWith, hclass, Pseudocode.shapeRmReg, ← hd, ← hw]
  by_cases hb1 : s.ip + 1 < s.len
  · rw [window_of_inside hb1, memRead1_of_fits hb1]
    simp only [takeByte_cons, rmoperand_eq_answer s _ _ w 2, bind, Except.bind]
    cases resolveRm _ _ (window s 4 (s.ip + 2)) with
    | error r => rfl
    | ok p => cases d <;> rfl
  · rw [window_of_past_end (by omega), memRead1_of_past_end (by omega)]
    rfl

/-- A running step on an opcode byte of shape RM_REG concludes as R104 writes it. -/
theorem step_rmReg {s : State} {op : Op} {d : Bool} {w : Width} (hrun : s.status = .running) (hinside : s.ip < s.len)
    (hclass : classify (s.mem.get s.ip) = .rmReg op d w) :
    step s = .next (Pseudocode.conclude s (Pseudocode.shapeRmReg s (opName op) (s.mem.get s.ip))) := by
  rw [step_eq_conclude hrun hinside.ne, fetch_rmReg hinside hclass]

theorem getLsbD_one_opByte : ∀ (op6 : BitVec 6) (ds w : Bool), (opByte op6 ds w).getLsbD 1 = ds := by decide

theorem wField_opByte : ∀ (op6 : BitVec 6) (ds w : Bool), wField (opByte op6 ds w) = Width.ofBit w := by decide

/-- Settles O34: the bytes 100010dw are `mov` of shape RM_REG, and R104 with their `d` and `w` is R110 or R111. -/
theorem movRegisterBytesPrint : Obligations.MovRegisterBytesPrint := by
  intro s w hrun hinside
  have hstep (d : Bool) (hb0 : s.mem.get s.ip = opByte 0b100010#6 d w) :
      step s = .next (Pseudocode.conclude s (Pseudocode.shapeRmReg s movName (opByte 0b100010#6 d w))) := by
    have hclass : classify (s.mem.get s.ip) = .rmReg .mov d (Width.ofBit w) := hb0 ▸ classify_rmReg .mov d w
    rw [step_rmReg hrun hinside hclass, hb0, opName]
  refine ⟨fun hb0 => ?_, fun hb0 => ?_⟩
  · rw [hstep false hb0, Pseudocode.shapeRmReg, wField_opByte, getLsbD_one_opByte]
    rfl
  · rw [hstep true hb0, Pseudocode.shapeRmReg, wField_opByte, getLsbD_one_opByte]
    rfl

end Sys2Proof.Machine
end

section
/-! Proofs for 30_encoding.md: the fields of the two bytes (R51, R52), the opcode map (R56, R170), and the decoder and the encoder as
each other's inverse (R50 to R60). -/

namespace Sys2Proof

/-! ### Fields (R51, R52) -/

/-- A bit of a byte is a digit of its value to the base 2. -/
theorem getLsbD_eq_digit (b : Byte) (k : Nat) : b.getLsbD k = decide (b.toNat / 2 ^ k % 2 = 1) :=
  Nat.testBit_eq_decide_div_mod_eq

theorem width_bit_field (b : Byte) (k : Nat) : (Width.ofBit (b.getLsbD k)).bit = decide (b.toNat / 2 ^ k % 2 = 1) := by
  rw [Width.bit_ofBit, getLsbD_eq_digit]

/-- A field of `len` bits from bit `start` on, as a number. -/
theorem field_toNat (b : Byte) (start len : Nat) :
    (b.extractLsb' start len).toNat = b.toNat / 2 ^ start % 2 ^ len := by
  rw [BitVec.extractLsb'_toNat, Nat.shiftRight_eq_div_pow]

/-- A field that reaches up to bit 7 needs no remainder. -/
theorem topField_toNat (b : Byte) (start len : Nat) (h : 2 ^ start * 2 ^ len = 256) :
    (b.extractLsb' start len).toNat = b.toNat / 2 ^ start := by
  rw [field_toNat, Nat.mod_eq_of_lt]
  exact Nat.div_lt_of_lt_mul (h ▸ b.isLt)

/-- A field that starts at bit 0 needs no division. -/
theorem lowField_toNat (b : Byte) (len : Nat) : (b.extractLsb' 0 len).toNat = b.toNat % 2 ^ len := by
  rw [field_toNat, pow_zero, Nat.div_one]

/-- Settles O13: each field is a range of bits, read as quotient and remainder of the byte's value. -/
theorem fieldsOfTheTwoBytes : Obligations.FieldsOfTheTwoBytes :=
  ⟨fun b0 => ⟨topField_toNat b0 2 6 rfl, getLsbD_eq_digit b0 1,
      (width_bit_field b0 0).trans (by rw [pow_zero, Nat.div_one]), width_bit_field b0 3,
      lowField_toNat b0 3, field_toNat b0 3 3, lowField_toNat b0 4, lowField_toNat b0 2⟩,
    fun b1 => ⟨topField_toNat b1 6 2 rfl, field_toNat b1 3 3, lowField_toNat b1 3, modRegRm_fields b1⟩⟩

/-! ### The opcode map -/

/-- The ranges of refused opcode bytes (R170). -/
theorem classify_eq_unsupported_iff : ∀ b : Byte, classify b = .unsupported ↔
    (b.toNat < 0x40 ∧ b.toNat % 8 ≥ 6) ∨ (0x40 ≤ b.toNat ∧ b.toNat ≤ 0x6F) ∨ (0x84 ≤ b.toNat ∧ b.toNat ≤ 0x87) ∨
    (0x8C ≤ b.toNat ∧ b.toNat ≤ 0x9F) ∨ (0xA4 ≤ b.toNat ∧ b.toNat ≤ 0xAF) ∨ (0xC0 ≤ b.toNat ∧ b.toNat ≤ 0xC5) ∨
    (0xC8 ≤ b.toNat ∧ b.toNat ≤ 0xDF) ∨ 0xE4 ≤ b.toNat := by
  decide

/-- Settles O17: the ranges byte by byte, and the count over the 256 bytes. -/
theorem opcodeMapCounts : Obligations.OpcodeMapCounts :=
  ⟨classify_eq_unsupported_iff, rfl⟩

/-- Settles O12: the sample words evaluate. -/
theorem sampleEncodingsDecode : Obligations.SampleEncodingsDecode :=
  ⟨rfl, rfl, rfl, rfl, rfl, rfl, rfl, rfl, rfl, rfl, rfl, rfl, rfl, rfl, rfl, rfl, rfl⟩

/-! ### Decoding what was encoded -/

@[simp] theorem classifyWith_strict (b0 : Byte) : classifyWith Config.strictMatch b0 = classify b0 := rfl

@[simp] theorem ok_bind {α β : Type} (a : α) (f : α → Except Reject β) : (Except.ok a >>= f) = f a := rfl

@[simp] theorem pure_eq_ok {α : Type} (a : α) : (pure a : Except Reject α) = .ok a := rfl

/-- An immediate of a shape that fixes `s = 0` (R59). -/
theorem Imm.s_eq_false_iff (imm : Imm) : imm.s = false ↔ imm.unextended = true := by
  cases imm with
  | byte s b => simp [Imm.s, Imm.unextended]
  | sext b => simp [Imm.s, Imm.unextended]
  | word v => simp [Imm.s, Imm.unextended]

theorem resolveImm_unextended (imm : Imm) (bs : List Byte) (h : imm.unextended = true) :
    resolveImm false imm.width (imm.bytes ++ bs) = .ok (imm, bs) := by
  rw [← imm.s_eq_false_iff.mpr h]
  exact resolveImm_encoded imm bs

/-- Shape by shape: the opcode byte classifies as the shape that was encoded, and each reader gets back its field. -/
theorem decodeFormWith_encode (f : Form) (rest : List Byte) (h : f.wellFormed = true) :
    decodeFormWith Config.strictMatch (f.encode ++ rest) = .ok (f, rest) := by
  cases f with
  | rmReg op d w rm reg =>
    have hrm := resolveRm_encoded rm rest h
    simp [Form.encode, decodeFormWith, classify_rmReg, hrm]
  | immAcc op imm =>
    have himm := resolveImm_unextended imm rest h
    simp [Form.encode, decodeFormWith, imm.s_eq_false_iff.mpr h, classify_immAcc, himm]
  | immRm op rm imm =>
    cases op with
    | mov =>
      obtain ⟨hwf, hun⟩ := Bool.and_eq_true_iff.mp h
      have hrm := resolveRm_encoded rm (imm.bytes ++ rest) hwf
      have himm := resolveImm_unextended imm rest hun
      simp [Form.encode, decodeFormWith, classify_movImmRm, hrm, himm]
    | alu op =>
      have hrm := resolveRm_encoded rm (imm.bytes ++ rest) h
      have himm := resolveImm_encoded imm rest
      simp [Form.encode, decodeFormWith, classify_aluImmRm, hrm, himm]
  | immReg reg imm =>
    have himm := resolveImm_unextended imm rest h
    simp [Form.encode, decodeFormWith, classify_immReg, himm]
  | memAcc d w a =>
    simp [Form.encode, decodeFormWith, classify_memAcc]
  | jump cc r =>
    simp [Form.encode, decodeFormWith, classify_jump]
  | loop lp r =>
    simp [Form.encode, decodeFormWith, classify_loop]

/-- Settles O14: the form is decoded back, and the form determines the instruction. -/
theorem decodeOfEncode : Obligations.DecodeOfEncode := by
  intro i rest h
  rw [decode, decodeWith, encode, decodeFormWith_encode i.form rest h, Except.map, Machine.toInstr_form]

/-! ### Encoding what was decoded -/

/-- The opcode byte the encoder writes for a class of this hardware (R56): none for `Unsupported`, nor for IMM_ACC with `s = 1`. -/
def OpClass.opcodeByte : OpClass → Option Byte
  | .rmReg op d w => some (opByte op.rmRegBits d w.bit)
  | .immAcc op false w => some (opByte (0b00#2 ++ op.code ++ 0b1#1) false w.bit)
  | .immAcc _ true _ => none
  | .aluImmRm s w => some (opByte 0b100000#6 s w.bit)
  | .movImmRm w => some (opByte 0b110001#6 true w.bit)
  | .immReg w reg => some (0b1011#4 ++ BitVec.ofBool w.bit ++ reg : BitVec (4 + 1 + 3))
  | .memAcc d w => some (opByte 0b101000#6 d w.bit)
  | .jump cc => some (0b0111#4 ++ cc.code : BitVec (4 + 4))
  | .loop lp => some (0b111000#6 ++ lp.code : BitVec (6 + 2))
  | .unsupported => none

/-- The class of a supported byte has no other opcode byte: R56 drops no bit of it. -/
theorem opcodeByte_classify : ∀ b0 : Byte, classify b0 ≠ .unsupported → (classify b0).opcodeByte = some b0 := by
  decide

theorem opcodeByte_of_classify {b0 : Byte} {c : OpClass} (h : classify b0 = c) (hc : c ≠ .unsupported) :
    c.opcodeByte = some b0 := by
  subst h
  exact opcodeByte_classify b0 hc

theorem Rm.SpeltBy.modRegRm_eq {o : Rm} {b1 : Byte} (h : o.SpeltBy (modField b1) (rmField b1)) :
    modRegRm o.modBits (regField b1) o.rmBits = b1 := by
  rw [h.modBits, h.rmBits, modRegRm_fields]

/-- What the decoder reads is well formed and spells the bytes it was read from. -/
theorem Reads.encodes {b0 : Byte} {bs rest : List Byte} {f : Form} (h : Reads b0 bs rest f) :
    f.wellFormed = true ∧ b0 :: bs = f.encode ++ rest := by
  cases h with
  | rmReg hclass hrm hbytes =>
    cases opcodeByte_of_classify hclass nofun
    exact ⟨hrm.wellFormed, by rw [Form.encode, hrm.modRegRm_eq, hbytes]; rfl⟩
  | @immAcc op s w imm hclass himm hbytes =>
    obtain ⟨rfl, rfl⟩ := himm
    have hbyte := opcodeByte_of_classify hclass nofun
    cases hs : imm.s with
    | true => rw [hs] at hbyte; cases hbyte
    | false =>
      rw [hs] at hbyte
      cases hbyte
      exact ⟨imm.s_eq_false_iff.mp hs, by rw [Form.encode, hs, hbytes]; rfl⟩
  | aluImmRm hclass hrm himm hbytes =>
    obtain ⟨rfl, rfl⟩ := himm
    cases opcodeByte_of_classify hclass nofun
    exact ⟨hrm.wellFormed, by simp [Form.encode, hrm.modRegRm_eq, hbytes]⟩
  | @movImmRm w b1 rm imm hclass hreg hrm himm hbytes =>
    obtain ⟨hs, rfl⟩ := himm
    cases opcodeByte_of_classify hclass nofun
    exact ⟨Bool.and_eq_true_iff.mpr ⟨hrm.wellFormed, imm.s_eq_false_iff.mp hs⟩,
      by simp [Form.encode, ← hreg, hrm.modRegRm_eq, hbytes]⟩
  | @immReg w reg imm hclass himm hbytes =>
    obtain ⟨hs, rfl⟩ := himm
    cases opcodeByte_of_classify hclass nofun
    exact ⟨imm.s_eq_false_iff.mp hs, by rw [Form.encode, hbytes]; rfl⟩
  | memAcc hclass hbytes =>
    cases opcodeByte_of_classify hclass nofun
    exact ⟨rfl, by rw [Form.encode, hbytes]; rfl⟩
  | jump hclass hbytes =>
    cases opcodeByte_of_classify hclass nofun
    exact ⟨rfl, by rw [hbytes]; rfl⟩
  | loop hclass hbytes =>
    cases opcodeByte_of_classify hclass nofun
    exact ⟨rfl, by rw [hbytes]; rfl⟩

/-- Settles O15: an accepted window has a first byte, and what was read after it encodes to the window. -/
theorem encodeOfDecode : Obligations.EncodeOfDecode := by
  intro bs i rest h
  cases bs with
  | nil => cases h
  | cons b0 bs => exact (reads_of_decode h).encodes

end Sys2Proof
end

section
/-! Proofs for 30_encoding.md: the opcode table (R71). -/

namespace Sys2Proof

/-! ### The refusal by the `reg` field (92 D6) -/

theorem decode_of_movImmRm_reg {b0 b1 : Byte} {w : Width} (bs : List Byte) (hclass : classify b0 = .movImmRm w)
    (hreg : regField b1 ≠ 0) : decode (b0 :: b1 :: bs) = .error (.unsupportedOpcode b0) := by
  have hrefused : decodeFormWith Config.strictMatch (b0 :: b1 :: bs) = .error (.unsupportedOpcode b0) := by
    simp only [decodeFormWith, classifyWith_strict, hclass, takeByte_cons, ok_bind]
    exact if_pos ⟨hreg, rfl⟩
  rw [decode, decodeWith, hrefused, Except.map]

end Sys2Proof

namespace Sys2Proof.Machine

/-! ### The rows of the opcode table -/

/-- The row a class of opcode bytes stands for (R71): its match has `w = 0` and, where the mask leaves it open, `s = 0`. In shape
IMM_RM the `reg` field of the second byte selects the row (R58). -/
def rowOf (reg : BitVec 3) : OpClass → Option TableRow
  | .rmReg op d _ => some ⟨opName op, if d then .regRm else .rmReg, opByte op.rmRegBits d false ++ 0#8, 0xFE#8 ++ 0#8⟩
  | .immAcc op _ _ => some ⟨aluName op, .accImm, opByte (0b00#2 ++ op.code ++ 0b1#1) false false ++ 0#8, 0xFE#8 ++ 0#8⟩
  | .aluImmRm _ _ => some ⟨alu reg, .rmImm, 0x80#8 ++ modRegRm 0 reg 0, 0xFC38#16⟩
  | .movImmRm _ => if reg = 0 then some ⟨movName, .rmImm, 0xC600#16, 0xFE38#16⟩ else none
  | .immReg _ _ => some ⟨movName, .regImm, 0xB0#8 ++ 0#8, 0xF0#8 ++ 0#8⟩
  | .memAcc d _ => some ⟨movName, if d then .memAcc else .accMem, opByte 0b101000#6 d false ++ 0#8, 0xFE#8 ++ 0#8⟩
  | .jump cc => some ⟨jccName cc, .target, 0b0111#4 ++ cc.code ++ 0#8, 0xFF#8 ++ 0#8⟩
  | .loop lp => some ⟨loopName lp, .target, 0b111000#6 ++ lp.code ++ 0#8, 0xFF#8 ++ 0#8⟩
  | .unsupported => none

/-- The rows whose upper byte a class of opcode bytes matches: one, but for the eight of the arithmetic/logic immediates. -/
def rowsOfFirst : OpClass → List TableRow
  | .aluImmRm _ _ => tableImmRm.tail
  | c => (rowOf 0 c).toList

/-- The upper byte of match and mask on the opcode byte, over numbers: this is evaluated for every byte and row. -/
def TableRow.selectsFirst (r : TableRow) (b0 : Byte) : Bool :=
  b0.toNat &&& r.mask.toNat / 256 == r.matchBits.toNat / 256

/-- The lower byte of match and mask on the second byte. -/
def TableRow.selectsSecond (r : TableRow) (b1 : Byte) : Bool :=
  b1 &&& r.mask.extractLsb' 0 8 == r.matchBits.extractLsb' 0 8

/-- A word is made up of its two bytes. -/
theorem word_eq_iff (u v : Word) :
    u = v ↔ u.extractLsb' 8 8 = v.extractLsb' 8 8 ∧ u.extractLsb' 0 8 = v.extractLsb' 0 8 := by
  refine ⟨fun h => h ▸ ⟨rfl, rfl⟩, fun ⟨hhi, hlo⟩ => ?_⟩
  rw [← wordOfBytes_wordBytes u, ← wordOfBytes_wordBytes v, hhi, hlo]

theorem upperByte_toNat (v : Word) : (v.extractLsb' 8 8).toNat = v.toNat / 256 := by
  have hword : v.toNat < 65536 := v.isLt
  rw [BitVec.extractLsb'_toNat, Nat.shiftRight_eq_div_pow]
  omega

theorem selects_eq (r : TableRow) (b0 b1 : Byte) : r.selects b0 b1 = (r.selectsFirst b0 && r.selectsSecond b1) := by
  rw [Bool.eq_iff_iff, Bool.and_eq_true, TableRow.selects, TableRow.selectsFirst, TableRow.selectsSecond]
  simp only [beq_iff_eq]
  rw [word_eq_iff, BitVec.extractLsb'_and, BitVec.extractLsb'_and, BitVec.extractLsb'_append_eq_left,
    BitVec.extractLsb'_append_eq_right, ← BitVec.toNat_inj, BitVec.toNat_and, upperByte_toNat, upperByte_toNat]

theorem filter_selectsFirst : ∀ b0 : Byte,
    (opcodeTable.filter fun r => r.selectsFirst b0) = rowsOfFirst (classify b0) := by
  decide

/-- A row whose mask leaves the second byte open matches every second byte. -/
theorem filter_selectsSecond_open (r : TableRow) (b1 : Byte) (hmask : r.mask.extractLsb' 0 8 = 0#8)
    (hmatch : r.matchBits.extractLsb' 0 8 = 0#8) : [r].filter (fun r => r.selectsSecond b1) = [r] := by
  simp [TableRow.selectsSecond, hmask, hmatch]

theorem filter_selectsSecond_aluImmRm : ∀ b1 : Byte,
    (tableImmRm.tail.filter fun r => r.selectsSecond b1) = (rowOf (regField b1) (.aluImmRm false .byte)).toList := by
  decide

theorem filter_selectsSecond_movImmRm : ∀ b1 : Byte,
    ((rowOf 0 (.movImmRm .byte)).toList.filter fun r => r.selectsSecond b1) =
      (rowOf (regField b1) (.movImmRm .byte)).toList := by
  decide

theorem filter_selectsSecond (c : OpClass) (b1 : Byte) :
    ((rowsOfFirst c).filter fun r => r.selectsSecond b1) = (rowOf (regField b1) c).toList := by
  have hlow (hi : Byte) : (hi ++ 0#8).extractLsb' 0 8 = 0#8 := BitVec.extractLsb'_append_eq_right
  cases c with
  | rmReg op d w => exact filter_selectsSecond_open _ b1 (hlow _) (hlow _)
  | immAcc op s w => exact filter_selectsSecond_open _ b1 (hlow _) (hlow _)
  | aluImmRm s w => exact filter_selectsSecond_aluImmRm b1
  | movImmRm w => exact filter_selectsSecond_movImmRm b1
  | immReg w reg => exact filter_selectsSecond_open _ b1 (hlow _) (hlow _)
  | memAcc d w => exact filter_selectsSecond_open _ b1 (hlow _) (hlow _)
  | jump cc => exact filter_selectsSecond_open _ b1 (hlow _) (hlow _)
  | loop lp => exact filter_selectsSecond_open _ b1 (hlow _) (hlow _)
  | unsupported => rfl

/-- The rows that match two bytes: the one of their class and `reg` field, if there is one. -/
theorem filter_selects (b0 b1 : Byte) :
    (opcodeTable.filter fun r => r.selects b0 b1) = (rowOf (regField b1) (classify b0)).toList := by
  rw [← filter_selectsSecond, ← filter_selectsFirst, List.filter_filter]
  exact List.filter_congr fun r _ => (selects_eq r b0 b1).trans (Bool.and_comm ..)

/-- What the decoder reads stands in the row selected, under the same mnemonic and operand form. -/
theorem rowOf_of_reads {b0 b1 : Byte} {bs rest : List Byte} {f : Form} (h : Reads b0 (b1 :: bs) rest f) :
    ∃ row, rowOf (regField b1) (classify b0) = some row ∧ row.mnemonic = (recordOf f).mn ∧ row.operands = operandForm f := by
  cases h with
  | @rmReg _ d _ _ _ hclass => rw [hclass]; exact ⟨_, rfl, by cases d <;> rfl, by cases d <;> rfl⟩
  | immAcc hclass => rw [hclass]; exact ⟨_, rfl, rfl, rfl⟩
  | aluImmRm hclass _ _ hbytes => cases hbytes; rw [hclass]; exact ⟨_, rfl, rfl, rfl⟩
  | movImmRm hclass hreg _ _ hbytes => cases hbytes; rw [hclass]; exact ⟨_, if_pos hreg, rfl, rfl⟩
  | immReg hclass => rw [hclass]; exact ⟨_, rfl, rfl, rfl⟩
  | @memAcc d _ _ hclass => rw [hclass]; exact ⟨_, rfl, by cases d <;> rfl, by cases d <;> rfl⟩
  | jump hclass => rw [hclass]; exact ⟨_, rfl, rfl, rfl⟩
  | loop hclass => rw [hclass]; exact ⟨_, rfl, rfl, rfl⟩

/-- No row is selected for an unsupported byte, and for `mov` immediate with a `reg` field other than 000. -/
theorem rowOf_eq_none_iff (reg : BitVec 3) (c : OpClass) :
    rowOf reg c = none ↔ c = .unsupported ∨ ∃ w, c = .movImmRm w ∧ reg ≠ 0 := by
  cases c <;> simp [rowOf]

/-- The decoder refuses two bytes as an unsupported opcode exactly when no row is selected. -/
theorem decode_unsupported_iff (b0 b1 : Byte) (bs : List Byte) :
    decode (b0 :: b1 :: bs) = .error (.unsupportedOpcode b0) ↔ rowOf (regField b1) (classify b0) = none := by
  rw [rowOf_eq_none_iff]
  constructor
  · intro h
    obtain he | ⟨b0', r, hbytes, -, hrefused⟩ := decode_error h
    · cases he
    · cases hbytes
      refine hrefused.imp_right fun ⟨w, b1', r', hclass, hr, hreg⟩ => ?_
      cases hr
      exact ⟨w, hclass, hreg⟩
  · rintro (hclass | ⟨w, hclass, hreg⟩)
    · exact decode_of_unsupported hclass
    · exact decode_of_movImmRm_reg bs hclass hreg

/-- Settles O18: the rows that match are the row of the class, and the decoder reads the form of that row or refuses for want of it. -/
theorem tableSelectsTheDecodedRow : Obligations.TableSelectsTheDecodedRow := by
  refine ⟨fun b0 b1 bs => ⟨fun i rest h => ?_, ?_⟩, rfl⟩
  · obtain ⟨row, hrow, hmnemonic, hoperands⟩ := rowOf_of_reads (reads_of_decode h)
    exact ⟨row, by rw [filter_selects, hrow]; rfl, hmnemonic, hoperands⟩
  · rw [decode_unsupported_iff, filter_selects, Option.toList_eq_nil_iff]

end Sys2Proof.Machine
end

section
/-! Proofs for 30_encoding.md: the alternative reading of the opcode (R66) and the redundant encodings (R67). -/

namespace Sys2Proof

/-! ### The alternative reading -/

theorem classifyWith_false_immAcc (op : AluOp) (s w : Bool) :
    classifyWith false (opByte (0b00#2 ++ op.code ++ 0b1#1) s w) = .immAcc op s (Width.ofBit w) := by
  cases op <;> cases s <;> cases w <;> decide

theorem classifyWith_false_movImmRm : ∀ s w : Bool,
    classifyWith false (opByte 0b110001#6 s w) = .movImmRm (Width.ofBit w) := by
  decide

/-- The sixteen bytes 00aaa11w (92 D4). -/
theorem classify_immAcc_extended (op : AluOp) (w : Bool) :
    classify (opByte (0b00#2 ++ op.code ++ 0b1#1) true w) = .unsupported := by
  cases op <;> cases w <;> decide

/-- The bytes C4 and C5 (92 D5). -/
theorem classify_C4_C5 : ∀ w : Bool, classify (opByte 0b110001#6 false w) = .unsupported := by decide

/-- The alternative reading classifies a byte this hardware supports as this hardware does. -/
theorem classifyWith_false_of_supported {b0 : Byte} (h : classify b0 ≠ .unsupported) :
    classifyWith false b0 = classify b0 := by
  revert h
  unfold classify classifyWith
  split_ifs <;> simp_all [Config.strictMatch]

/-- The two readings differ in the classification and in the check of the `reg` field, which only refuse more where strict. -/
theorem decodeFormWith_false_of_strict {bs : List Byte} {p : Form × List Byte}
    (h : decodeFormWith Config.strictMatch bs = .ok p) : decodeFormWith false bs = .ok p := by
  cases bs with
  | nil => cases h
  | cons b0 bs =>
    have hsupported : classify b0 ≠ .unsupported := by
      intro hclass
      rw [decodeFormWith, classifyWith_strict, hclass] at h
      cases h
    rw [decodeFormWith, classifyWith_strict] at h
    rw [decodeFormWith, classifyWith_false_of_supported hsupported]
    cases hclass : classify b0 with
    | movImmRm w =>
      rw [hclass] at h
      obtain ⟨⟨b1, r⟩, hb1, h⟩ := bind_ok h
      simp only [hb1, ok_bind] at h ⊢
      split at h
      · cases h
      · simpa using h
    | _ => rw [hclass] at h; exact h

/-- Settles O19: under the alternative reading the classes and then the readers; on this hardware the refusals by class and by the
`reg` field; and the two readings where this hardware does not refuse. -/
theorem alternativeReadingOfTheOpcode : Obligations.AlternativeReadingOfTheOpcode := by
  refine ⟨fun op b1 rest => ⟨?_, ?_⟩, fun x reg rm imm rest hrm himm => ?_,
    fun op w bs => decode_of_unsupported (classify_immAcc_extended op w),
    fun w bs => decode_of_unsupported (classify_C4_C5 w),
    fun w b1 bs => decode_of_movImmRm_reg bs (classify_movImmRm w), fun bs p h => ?_⟩
  · rw [decodeWith, decodeFormWith, classifyWith_false_immAcc]
    rfl
  · rw [decodeWith, decodeFormWith, classifyWith_false_immAcc]
    rfl
  · simp [decodeWith, decodeFormWith, classifyWith_false_movImmRm, resolveRm_encoded rm _ hrm,
      resolveImm_unextended imm rest himm, Except.map, Form.toInstr]
  · obtain ⟨i, rest⟩ := p
    rw [decodeWith, decodeFormWith_false_of_strict (decodeFormWith_of_decode h), Except.map, Machine.toInstr_form]

end Sys2Proof

namespace Sys2Proof.Machine

/-! ### The redundant encodings -/

/-- The line is made of mnemonic, destination and source; the length plays no part in it. -/
theorem lineOf_eq (i : Instr) : lineOf i =
    (recordOf i.form).mn ++ [' '] ++ (recordOf i.form).dst ++
      (if (recordOf i.form).src = [] then [] else [',', ' '] ++ (recordOf i.form).src) ++ ['\n'] := by
  rw [lineOf, render_of_dst 0 _ (recordOf_dst_ne i.form)]

theorem lineOf_toInstr_congr {f g : Form} (hmn : (recordOf f).mn = (recordOf g).mn)
    (hdst : (recordOf f).dst = (recordOf g).dst) (hsrc : (recordOf f).src = (recordOf g).src) :
    lineOf f.toInstr = lineOf g.toInstr := by
  rw [lineOf_eq, lineOf_eq, form_toInstr, form_toInstr, hmn, hdst, hsrc]

/-- The accumulator is the register with code 0 (R16). -/
theorem acc_eq_regname (w : Width) : acc w = regname w 0 := by cases w <;> rfl

/-- Two immediates of one width and text print the same line after the same operand. -/
theorem lineOf_immRm_congr (op : Op) (rm : Rm) {imm imm' : Imm} (hwidth : imm.width = imm'.width)
    (htext : immText imm = immText imm') :
    lineOf (Form.immRm op rm imm).toInstr = lineOf (Form.immRm op rm imm').toInstr := by
  apply lineOf_toInstr_congr <;> simp only [recordOf, shapeImmRm, hwidth, htext]

/-- Settles O20: each pair of encodings has the same mnemonic, destination and source. -/
theorem redundantEncodingsPrintTheSame : Obligations.RedundantEncodingsPrintTheSame := by
  refine ⟨fun w a b => ⟨rfl, fun op => lineOf_toInstr_congr rfl rfl rfl⟩, fun w r => ⟨rfl, rfl⟩, fun w r d => ?_,
    fun op rm b => ⟨lineOf_immRm_congr _ rm rfl rfl, lineOf_immRm_congr _ rm rfl rfl⟩, fun c imm => rfl,
    fun op imm => lineOf_toInstr_congr rfl (acc_eq_regname imm.width).symm rfl, fun w a => ⟨?_, ?_⟩⟩
  · rw [rmText, rmText, signed16_sext16]
  · exact lineOf_toInstr_congr (f := .memAcc false w a) (g := .rmReg .mov true w (.direct a) 0) rfl (acc_eq_regname w) rfl
  · exact lineOf_toInstr_congr (f := .memAcc true w a) (g := .rmReg .mov false w (.direct a) 0) rfl rfl (acc_eq_regname w)

end Sys2Proof.Machine
end

section
/-! Proofs for 10_state.md and 00_scope.md: the start of a run (R29), the name tables (R14 to R17, R62 to R64), the readings of a
number (R8, R96) and its decimal text (92 D17). -/

namespace Sys2Proof.Machine

/-! ### The start of a run and the tables -/

/-- Settles O1: every field by its law, every byte as it was placed. -/
theorem startOfRunHasStartValues : Obligations.StartOfRunHasStartValues :=
  ⟨fun bs => ⟨State.start_ip bs, State.start_out bs, State.start_status bs, State.start_len bs, State.start_get bs⟩, rfl, by decide⟩

/-- Settles O3: the tables evaluate entry by entry, and the accumulator is the register with code 0. -/
theorem nameTablesHaveTheirEntries : Obligations.NameTablesHaveTheirEntries :=
  ⟨rfl, rfl, rfl, rfl, rfl, rfl, rfl, rfl, acc_eq_regname⟩

/-! ### Numbers -/

theorem zext16_toNat (b : Byte) : (zext16 b).toNat = b.toNat := BitVec.toNat_setWidth_of_le (by decide)

theorem sext16_getLsbD_low (b : Byte) {k : Nat} (h : k < 8) : (sext16 b).getLsbD k = b.getLsbD k := by
  rw [sext16, BitVec.getLsbD_signExtend, decide_eq_true (Nat.lt_trans h (by decide)), Bool.true_and, if_pos h]

theorem sext16_getLsbD_high (b : Byte) {k : Nat} (hlow : 8 ≤ k) (hhigh : k < 16) :
    (sext16 b).getLsbD k = b.getLsbD 7 := by
  rw [sext16, BitVec.getLsbD_signExtend, decide_eq_true hhigh, Bool.true_and, if_neg hlow.not_gt, BitVec.msb_eq_getLsbD_last]

theorem signed16_bounds (v : Word) : -32768 ≤ signed16 v ∧ signed16 v ≤ 32767 := by
  have hword : v.toNat < 65536 := v.isLt
  rw [signed16]
  split_ifs <;> omega

/-- Settles O5: the readings are `toInt`, and an extension keeps the value or copies the sign bit. -/
theorem numberReadings : Obligations.NumberReadings :=
  ⟨fun b => ⟨signed8_eq_toInt b, zext16_toNat b, signed16_zext16 b, signed16_sext16 b,
      fun _ => sext16_getLsbD_low b, fun _ => sext16_getLsbD_high b⟩,
    fun v => ⟨signed16_eq_toInt v, signed16_bounds v⟩⟩

/-! ### Decimal text -/

/-- A digit has its value and stands in the grammar's lists. -/
theorem digit_facts : ∀ d < 10,
    (digit d).toNat - 48 = d ∧ digit d ∈ digits ∧ (0 < d → digit d ∈ nonzeroDigits) := by
  decide

theorem digit_mod (n : Nat) : digit n = digit (n % 10) := by
  rw [digit, digit, Nat.mod_mod]

theorem digit_toNat (n : Nat) : (digit n).toNat - 48 = n % 10 := by
  rw [digit_mod]
  exact (digit_facts (n % 10) (Nat.mod_lt n (by decide))).1

theorem digit_mem (n : Nat) : digit n ∈ digits := by
  rw [digit_mod]
  exact (digit_facts (n % 10) (Nat.mod_lt n (by decide))).2.1

/-- Reading on from value `v`, as `digitsValue` does from 0. -/
def digitsValueFrom (v : Nat) (t : Text) : Nat := t.foldl (fun n c => 10 * n + (c.toNat - 48)) v

theorem digitsValueFrom_cons (v n : Nat) (t : Text) :
    digitsValueFrom v (digit n :: t) = digitsValueFrom (10 * v + n % 10) t := by
  rw [digitsValueFrom, List.foldl_cons, digit_toNat, digitsValueFrom]

/-- The digits of `n` before `t` read as `n` and then `t`. -/
theorem digitsValueFrom_decDigits (fuel n : Nat) (t : Text) (h : n < fuel) :
    digitsValueFrom 0 (decDigits fuel n t) = digitsValueFrom n t := by
  induction fuel generalizing n t with
  | zero => omega
  | succ fuel ih =>
    rw [decDigits]
    split_ifs with hsmall
    · rw [digitsValueFrom_cons, Nat.mod_eq_of_lt hsmall, Nat.mul_zero, Nat.zero_add]
    · rw [ih (n / 10) _ (by omega), digitsValueFrom_cons, Nat.div_add_mod]

/-- The digits of a positive number before digits begin with a nonzero digit. -/
theorem decDigits_of_pos (fuel n : Nat) (t : Text) (hfuel : n < fuel) (hpos : 0 < n) (ht : ∀ x ∈ t, x ∈ digits) :
    ∃ c cs, decDigits fuel n t = c :: cs ∧ c ∈ nonzeroDigits ∧ ∀ x ∈ cs, x ∈ digits := by
  induction fuel generalizing n t with
  | zero => omega
  | succ fuel ih =>
    rw [decDigits]
    split_ifs with hsmall
    · exact ⟨_, t, rfl, (digit_facts n hsmall).2.2 hpos, ht⟩
    · refine ih (n / 10) _ (by omega) (by omega) fun x hx => ?_
      obtain rfl | hx := List.mem_cons.mp hx
      · exact digit_mem n
      · exact ht x hx

theorem digitsValue_decNat (n : Nat) : digitsValue (decNat n) = n :=
  digitsValueFrom_decDigits (n + 1) n [] (Nat.lt_succ_self n)

theorem decNat_isNatural (n : Nat) : IsNatural (decNat n) := by
  obtain rfl | hpos := Nat.eq_zero_or_pos n
  · exact .inl rfl
  · exact .inr (decDigits_of_pos (n + 1) n [] (Nat.lt_succ_self n) hpos nofun)

theorem dec_of_neg {z : Int} (h : z < 0) : dec z = '-' :: decNat z.natAbs := if_pos h

/-- Settles O6: the value and the form of the digits, and the sign before them. -/
theorem decimalTextIsTheNumber : Obligations.DecimalTextIsTheNumber :=
  ⟨fun n => ⟨digitsValue_decNat n, decNat_isNatural n⟩, fun _ => ⟨dec_of_nonneg, dec_of_neg⟩⟩

end Sys2Proof.Machine
end

section
/-! Proofs for 40_operand_resolvers.md: the text of an effective address (R86, R87). -/

namespace Sys2Proof.Machine

theorem baseText_of_zero (base : Text) {disp : Int} (h : disp = 0) : baseText base disp = '[' :: base ++ [']'] := by
  rw [baseText, if_pos h]
  rfl

theorem baseText_of_pos (base : Text) {disp : Int} (h : 0 < disp) :
    baseText base disp = '[' :: base ++ [' ', '+', ' '] ++ decNat disp.natAbs ++ [']'] := by
  rw [baseText, if_neg h.ne', if_pos h, dec_of_nonneg h.le]
  rfl

theorem baseText_of_neg (base : Text) {disp : Int} (h : disp < 0) :
    baseText base disp = '[' :: base ++ [' ', '-', ' '] ++ decNat disp.natAbs ++ [']'] := by
  rw [baseText, if_neg h.ne, if_neg h.not_gt]
  rfl

/-- The text of a base and a displacement in each of the three cases of its sign. -/
theorem baseText_by_sign (base : Text) (disp : Int) :
    (disp = 0 → baseText base disp = '[' :: base ++ [']']) ∧
    (0 < disp → baseText base disp = '[' :: base ++ [' ', '+', ' '] ++ decNat disp.natAbs ++ [']']) ∧
    (disp < 0 → baseText base disp = '[' :: base ++ [' ', '-', ' '] ++ decNat disp.natAbs ++ [']']) :=
  ⟨baseText_of_zero base, baseText_of_pos base, baseText_of_neg base⟩

/-- Settles O8: a direct address has no base; the other modes print their base with the displacement they hold. -/
theorem effectiveAddressText : Obligations.EffectiveAddressText :=
  ⟨fun _ _ => rfl, fun _ r => baseText_of_zero (eabase r) rfl, fun _ r d => baseText_by_sign (eabase r) (signed8 d),
    fun _ r d => baseText_by_sign (eabase r) (signed16 d)⟩

end Sys2Proof.Machine
end

section
/-! Proofs for 41_mov.md, 42_alu.md, 43_cond_jumps.md and 44_loops.md: an instruction that fits into the stream prints its line and
moves `ip` on by its length (R97, R100), and one that does not is truncated (R182). -/

namespace Sys2Proof.Machine

/-! ### What an instruction prints -/

theorem lineOf_of_src {f : Form} (h : (recordOf f).src ≠ []) :
    lineOf f.toInstr = (recordOf f).mn ++ [' '] ++ (recordOf f).dst ++ [',', ' '] ++ (recordOf f).src ++ ['\n'] := by
  rw [lineOf_eq, form_toInstr, if_neg h, ← List.append_assoc]

theorem lineOf_of_no_src {f : Form} (h : (recordOf f).src = []) :
    lineOf f.toInstr = (recordOf f).mn ++ [' '] ++ (recordOf f).dst ++ ['\n'] := by
  rw [lineOf_eq, form_toInstr, if_pos h, List.append_nil]

theorem exec_toInstr_of_fits (f : Form) (s : State) (hfits : s.ip + f.len ≤ s.len) :
    exec f.toInstr s = .next (s.advance (lineOf f.toInstr) f.len) := by
  have h := exec_of_fits f.toInstr s
  rw [Instr.len, form_toInstr] at h
  exact h hfits

/-- A form with a source prints `mn dst, src`. -/
theorem exec_prints (f : Form) (s : State) (hfits : s.ip + f.len ≤ s.len) (hsrc : (recordOf f).src ≠ []) :
    exec f.toInstr s = .next (printed s (recordOf f).mn (recordOf f).dst (recordOf f).src f.len) := by
  rw [exec_toInstr_of_fits f s hfits, lineOf_of_src hsrc]
  rfl

/-- A form without a source, of two bytes, prints `mn dst`. -/
theorem exec_printsJump (f : Form) (s : State) (hlen : f.len = 2) (hfits : s.ip + 2 ≤ s.len)
    (hsrc : (recordOf f).src = []) : exec f.toInstr s = .next (printedJump s (recordOf f).mn (recordOf f).dst) := by
  rw [exec_toInstr_of_fits f s (hlen ▸ hfits), lineOf_of_no_src hsrc, hlen]
  rfl

/-- The size stands before the text for a memory operand alone (R95). -/
theorem sized_eq (rm : Rm) (w : Width) (t : Text) : sized rm w t = if isMemory rm then sizePrefix w ++ t else t := by
  cases rm <;> cases w <;> rfl

theorem decNat_ne (n : Nat) : decNat n ≠ [] := by
  obtain h | ⟨c, cs, h, -⟩ := decNat_isNatural n
  · simp [h]
  · simp [h]

theorem dec_ne (z : Int) : dec z ≠ [] := by
  rw [dec]
  split
  · exact List.cons_ne_nil _ _
  · exact decNat_ne _

theorem immText_ne (imm : Imm) : immText imm ≠ [] := dec_ne _

theorem sized_ne (rm : Rm) (w : Width) {t : Text} (h : t ≠ []) : sized rm w t ≠ [] := by
  rw [sized_eq]
  split
  · exact List.append_ne_nil_of_right_ne_nil _ h
  · exact h

/-! ### The shapes -/

section Shapes
variable (op : Op) (w : Width) (rm : Rm) (reg : BitVec 3) (imm : Imm) (s : State)

theorem exec_rmReg (hfits : s.ip + (2 + rm.dispLen) ≤ s.len) : exec (Form.rmReg op false w rm reg).toInstr s =
    .next (printed s (opName op) (rmText w rm) (regname w reg) (2 + rm.dispLen)) :=
  exec_prints (.rmReg op false w rm reg) s hfits (regname_ne w reg)

theorem exec_regRm (hfits : s.ip + (2 + rm.dispLen) ≤ s.len) : exec (Form.rmReg op true w rm reg).toInstr s =
    .next (printed s (opName op) (regname w reg) (rmText w rm) (2 + rm.dispLen)) :=
  exec_prints (.rmReg op true w rm reg) s hfits (rmText_ne w rm)

theorem exec_immRm (hfits : s.ip + (2 + rm.dispLen + imm.len) ≤ s.len) : exec (Form.immRm op rm imm).toInstr s =
    .next (printed s (opName op) (rmText imm.width rm) (sized rm imm.width (immText imm)) (2 + rm.dispLen + imm.len)) := by
  have hsrc := sized_ne rm imm.width (immText_ne imm)
  rw [sized_eq] at hsrc ⊢
  exact exec_prints (.immRm op rm imm) s hfits hsrc

theorem exec_immAcc (op : AluOp) (hfits : s.ip + (1 + imm.len) ≤ s.len) : exec (Form.immAcc op imm).toInstr s =
    .next (printed s (aluName op) (acc imm.width) (immText imm) (1 + imm.len)) :=
  exec_prints (.immAcc op imm) s hfits (immText_ne imm)

theorem exec_jump (cc : Jcc) (rel8 : Byte) (hfits : s.ip + 2 ≤ s.len) : exec (Form.jump cc rel8).toInstr s =
    .next (printedJump s (jccName cc) (targetText rel8)) :=
  exec_printsJump (.jump cc rel8) s rfl hfits rfl

theorem exec_loop (lp : LoopOp) (rel8 : Byte) (hfits : s.ip + 2 ≤ s.len) : exec (Form.loop lp rel8).toInstr s =
    .next (printedJump s (loopName lp) (targetText rel8)) :=
  exec_printsJump (.loop lp rel8) s rfl hfits rfl

end Shapes

/-! ### The constructors, by their shapes -/

/-- Settles O21. -/
theorem movRegisterFormsComplete : Obligations.MovRegisterFormsComplete :=
  fun w rm reg s h => ⟨exec_rmReg .mov w rm reg s h, exec_regRm .mov w rm reg s h⟩

/-- Settles O22. -/
theorem movImmediateFormsComplete : Obligations.MovImmediateFormsComplete :=
  ⟨exec_immRm .mov, fun reg imm s h => exec_prints (.immReg reg imm) s h (immText_ne imm)⟩

/-- Settles O23. -/
theorem movAccumulatorFormsComplete : Obligations.MovAccumulatorFormsComplete :=
  fun w addr s h => ⟨exec_prints (.memAcc false w addr) s h (addrText_ne addr), exec_prints (.memAcc true w addr) s h (acc_ne w)⟩

/-- Settles O24: the shape RM_REG with `d = 0`, for each of the eight mnemonics. -/
theorem aluRegisterToRmComplete : Obligations.AluRegisterToRmComplete := by
  intro w rm reg s h
  have hop (op : AluOp) := exec_rmReg (.alu op) w rm reg s h
  exact ⟨hop .add, hop .or, hop .adc, hop .sbb, hop .and, hop .sub, hop .xor, hop .cmp⟩

/-- Settles O25: the shape RM_REG with `d = 1`, for each of the eight mnemonics. -/
theorem aluRmToRegisterComplete : Obligations.AluRmToRegisterComplete := by
  intro w rm reg s h
  have hop (op : AluOp) := exec_regRm (.alu op) w rm reg s h
  exact ⟨hop .add, hop .or, hop .adc, hop .sbb, hop .and, hop .sub, hop .xor, hop .cmp⟩

/-- Settles O26: the shape IMM_ACC, for each of the eight mnemonics. -/
theorem aluImmediateToAccumulatorComplete : Obligations.AluImmediateToAccumulatorComplete := by
  intro imm s h
  have hop (op : AluOp) := exec_immAcc imm s op h
  exact ⟨hop .add, hop .or, hop .adc, hop .sbb, hop .and, hop .sub, hop .xor, hop .cmp⟩

/-- Settles O27: the shape IMM_RM, for each of the eight mnemonics. -/
theorem aluImmediateToRmComplete : Obligations.AluImmediateToRmComplete := by
  intro rm imm s h
  have hop (op : AluOp) := exec_immRm (.alu op) rm imm s h
  exact ⟨hop .add, hop .or, hop .adc, hop .sbb, hop .and, hop .sub, hop .xor, hop .cmp⟩

/-- Settles O28: the shape JUMP8, for each of the sixteen conditions. -/
theorem conditionalJumpsComplete : Obligations.ConditionalJumpsComplete := by
  intro rel8 s h
  have hcc (cc : Jcc) := exec_jump s cc rel8 h
  exact ⟨hcc .jo, hcc .jno, hcc .jb, hcc .jnb, hcc .je, hcc .jne, hcc .jbe, hcc .ja,
    hcc .js, hcc .jns, hcc .jp, hcc .jnp, hcc .jl, hcc .jnl, hcc .jle, hcc .jg⟩

/-- Settles O29: the shape JUMP8, for each of the four loop instructions. -/
theorem loopsComplete : Obligations.LoopsComplete := by
  intro rel8 s h
  have hlp (lp : LoopOp) := exec_loop s lp rel8 h
  exact ⟨hlp .loopnz, hlp .loopz, hlp .loop, hlp .jcxz⟩

/-! ### Every instruction -/

theorem exec_of_past_end (i : Instr) (s : State) (h : s.len < s.ip + i.len) :
    exec i s = .next (s.setStatus (.fault (.truncatedInstruction s.ip))) := by
  obtain ⟨hfits, -⟩ | ⟨-, hraises⟩ := exec_cases i s
  · omega
  · exact hraises

/-- Settles O30: the two cases of an instruction. -/
theorem instructionThatDoesNotFitIsTruncated : Obligations.InstructionThatDoesNotFitIsTruncated :=
  fun i s => ⟨exec_of_past_end i s, exec_of_fits i s⟩

/-- Settles O31: the stream by the frame of an instruction, the rest by its two cases. -/
theorem instructionFrame : Obligations.InstructionFrame := by
  intro i s t h
  obtain ⟨hmem, hlen⟩ := exec_keeps_stream h
  refine ⟨fun a => by rw [hmem], hmem, hlen, ?_⟩
  obtain ⟨-, hcompletes⟩ | ⟨-, hraises⟩ := exec_cases i s
  · cases hcompletes.symm.trans h
    exact .inl ⟨rfl, rfl, lineOf i, rfl⟩
  · cases hraises.symm.trans h
    exact .inr ⟨rfl, rfl, _, rfl⟩

end Sys2Proof.Machine
end

section
/-! Proofs for 40_operand_resolvers.md: all the states a step can answer (R100). -/

namespace Sys2Proof.Machine

/-- All the states a step can answer: a fetched instruction always fits into the stream, so it prints its line. -/
inductive StepTo (s : State) : State → Prop where
  | stays (hover : s.status ≠ .running) : StepTo s s
  | ends (hrun : s.status = .running) (hend : s.ip = s.len) : StepTo s (s.setStatus .done)
  | raises {c : Condition} (hrun : s.status = .running) (hinside : s.ip ≠ s.len) (hfetch : fetch s = .error c) :
      StepTo s (s.setStatus (.fault c))
  | prints {i : Instr} (hrun : s.status = .running) (hfetch : fetch s = .ok i) (hfits : s.ip + i.len ≤ s.len) :
      StepTo s (s.advance (lineOf i) i.len)

/-- Every step answers one of these states. -/
theorem step_next (s : State) : ∃ t, step s = .next t ∧ StepTo s t := by
  obtain ⟨hover, hstays⟩ | ⟨hrun, hend, hends⟩ | ⟨hrun, hinside, c, hfetch, hraises⟩ | ⟨hrun, hinside, i, hfetch, hexec⟩ :=
    step_cases s
  · exact ⟨_, hstays, .stays hover⟩
  · exact ⟨_, hends, .ends hrun hend⟩
  · exact ⟨_, hraises, .raises hrun hinside hfetch⟩
  · have hfits := fetch_fits hfetch
    exact ⟨_, hexec.trans (exec_of_fits i s hfits), .prints hrun hfetch hfits⟩

theorem stepTo_of_step {s t : State} (h : step s = .next t) : StepTo s t := by
  obtain ⟨t', ht', hto⟩ := step_next s
  cases ht'.symm.trans h
  exact hto

theorem step_of_over {s : State} (hover : s.status ≠ .running) : step s = .next s := by
  obtain ⟨t, hstep, hto⟩ := step_next s
  cases hto with
  | stays => exact hstep
  | ends hrun | raises hrun | prints hrun => exact absurd hrun hover

end Sys2Proof.Machine
end

section
/-! Proofs for 40_operand_resolvers.md, 41_mov.md, 42_alu.md, 43_cond_jumps.md and 44_loops.md: from the bytes at `ip` to the line,
shape by shape as the pseudocode writes it (R100, R104 to R109). -/

namespace Sys2Proof.Machine

/-! ### The rest of a window -/

/-- What is left of a window is the window further on. -/
theorem window_drop (s : State) : ∀ n k a, (window s k a).drop n = window s (k - n) (a + n)
  | 0, _, _ => rfl
  | n + 1, 0, a => by simp [window]
  | n + 1, k + 1, a => by
    by_cases h : a < s.len
    · rw [window_of_inside h, List.drop_succ_cons, window_drop s n k (a + 1), Nat.add_sub_add_right, Nat.add_assoc a 1 n,
        Nat.add_comm 1 n]
    · have hempty : (window s (k + 1 - (n + 1)) (a + (n + 1))).length = 0 := by rw [window_length]; omega
      rw [window_of_past_end (by omega), List.drop_nil, List.length_eq_zero_iff.mp hempty]

/-- The resolver leaves the window behind the displacement bytes. -/
theorem resolveRm_window_rest {s : State} {mod : BitVec 2} {rm : BitVec 3} {k a : Nat} {o : Rm} {rest : List Byte}
    (h : resolveRm mod rm (window s k a) = .ok (o, rest)) : rest = window s (k - o.dispLen) (a + o.dispLen) := by
  rw [← window_drop, (resolveRm_ok h).2, ← Laws.LengthIsEncoded.rm_length, List.drop_left]

/-! ### The immediate (R91) -/

/-- The immediate of a reader's answer as the pseudocode gives it: its text and the number of its bytes. -/
def immAnswer (imm : Imm) : Text × Nat := (immText imm, imm.len)

/-- R91 by the window at `a`. -/
theorem imm_eq_answer (s : State) (sx : Bool) (w : Width) (k a : Nat) :
    Pseudocode.imm s sx w a = answer s immAnswer (resolveImm sx w (window s (k + 2) a)) := by
  unfold Pseudocode.imm
  simp only [memRead1_eq_answer s (k + 1) a, memRead2_eq_answer s k a]
  match w, sx with
  | .byte, _ =>
    rw [resolveImm]
    cases takeByte (window s (k + 2) a) <;> rfl
  | .word, true =>
    rw [resolveImm]
    cases takeByte (window s (k + 2) a) <;> rfl
  | .word, false =>
    rw [resolveImm]
    cases takeWord (window s (k + 2) a) <;> rfl

/-! ### The fields of a classified opcode byte (R51) -/

theorem fields_of_opByte {b0 : Byte} {op6 : BitVec 6} {ds : Bool} {w : Width} (h : some (opByte op6 ds w.bit) = some b0) :
    b0.getLsbD 1 = ds ∧ wField b0 = w := by
  cases h
  rw [getLsbD_one_opByte, wField_opByte, Width.ofBit_bit]
  exact ⟨rfl, rfl⟩

theorem fields_of_immAcc {b0 : Byte} {op : AluOp} {sx : Bool} {w : Width} (h : classify b0 = .immAcc op sx w) :
    b0.getLsbD 1 = sx ∧ wField b0 = w := by
  cases sx with
  | false => exact fields_of_opByte (opcodeByte_of_classify h nofun)
  | true => exact nomatch opcodeByte_of_classify h nofun

theorem fields_of_aluImmRm {b0 : Byte} {sx : Bool} {w : Width} (h : classify b0 = .aluImmRm sx w) :
    b0.getLsbD 1 = sx ∧ wField b0 = w :=
  fields_of_opByte (opcodeByte_of_classify h nofun)

theorem fields_of_memAcc {b0 : Byte} {d : Bool} {w : Width} (h : classify b0 = .memAcc d w) :
    b0.getLsbD 1 = d ∧ wField b0 = w :=
  fields_of_opByte (opcodeByte_of_classify h nofun)

theorem fields_of_movImmRm {b0 : Byte} {w : Width} (h : classify b0 = .movImmRm w) :
    b0.getLsbD 1 = true ∧ wField b0 = w :=
  fields_of_opByte (opcodeByte_of_classify h nofun)

theorem wShortField_immReg : ∀ (w : Bool) (reg : BitVec 3),
    wShortField (0b1011#4 ++ BitVec.ofBool w ++ reg : BitVec (4 + 1 + 3)) = Width.ofBit w := by
  decide

theorem regShortField_immReg : ∀ (w : Bool) (reg : BitVec 3),
    regShortField (0b1011#4 ++ BitVec.ofBool w ++ reg : BitVec (4 + 1 + 3)) = reg := by
  decide

theorem fields_of_immReg {b0 : Byte} {w : Width} {reg : BitVec 3} (h : classify b0 = .immReg w reg) :
    wShortField b0 = w ∧ regShortField b0 = reg := by
  cases opcodeByte_of_classify h nofun
  rw [wShortField_immReg, regShortField_immReg, Width.ofBit_bit]
  exact ⟨rfl, rfl⟩

/-- The bits by which R106 tells `mov` from the arithmetic/logic group. -/
theorem movBits_opByte : ∀ (sx w : Bool),
    (opByte 0b110001#6 true w).extractLsb' 1 7 = 0b1100011#7 ∧ (opByte 0b100000#6 sx w).extractLsb' 1 7 ≠ 0b1100011#7 := by
  decide

theorem movBits_of_movImmRm {b0 : Byte} {w : Width} (h : classify b0 = .movImmRm w) :
    b0.extractLsb' 1 7 = 0b1100011#7 := by
  cases opcodeByte_of_classify h nofun
  exact (movBits_opByte true w.bit).1

theorem movBits_of_aluImmRm {b0 : Byte} {sx : Bool} {w : Width} (h : classify b0 = .aluImmRm sx w) :
    b0.extractLsb' 1 7 ≠ 0b1100011#7 := by
  cases opcodeByte_of_classify h nofun
  exact (movBits_opByte sx w.bit).2

/-! ### The shapes without a second byte of fields: IMM_ACC, IMM_REG, MEM_ACC, JUMP8 (R105, R107 to R109) -/

theorem fetch_immAcc {s : State} {op : AluOp} {sx : Bool} {w : Width} (hinside : s.ip < s.len)
    (hclass : classify (s.mem.get s.ip) = .immAcc op sx w) :
    ((fetch s).map fun i => recordOf i.form) = Pseudocode.shapeImmAcc s (aluName op) (s.mem.get s.ip) := by
  obtain ⟨hs, hw⟩ := fields_of_immAcc hclass
  rw [fetch_record_eq_answer, maxLen, window_of_inside hinside, decodeFormWith, classifyWith_strict, hclass,
    Pseudocode.shapeImmAcc, hs, hw]
  simp only [imm_eq_answer s sx w 3]
  cases himm : resolveImm sx w (window s 5 (s.ip + 1)) with
  | error r => rfl
  | ok p =>
    obtain ⟨⟨-, rfl⟩, -⟩ := resolveImm_ok himm
    rfl

theorem fetch_immReg {s : State} {w : Width} {reg : BitVec 3} (hinside : s.ip < s.len)
    (hclass : classify (s.mem.get s.ip) = .immReg w reg) :
    ((fetch s).map fun i => recordOf i.form) = Pseudocode.shapeImmReg s (s.mem.get s.ip) := by
  obtain ⟨hw, hreg⟩ := fields_of_immReg hclass
  rw [fetch_record_eq_answer, maxLen, window_of_inside hinside, decodeFormWith, classifyWith_strict, hclass,
    Pseudocode.shapeImmReg, hw, hreg]
  simp only [imm_eq_answer s false w 3]
  cases himm : resolveImm false w (window s 5 (s.ip + 1)) with
  | error r => rfl
  | ok p =>
    obtain ⟨⟨-, rfl⟩, -⟩ := resolveImm_ok himm
    rfl

/-- R93 by the window at `a`. -/
theorem diraddr_eq_answer (s : State) (k a : Nat) :
    Pseudocode.diraddr s a = answer s addrText (takeWord (window s (k + 2) a)) := by
  rw [Pseudocode.diraddr, memRead2_eq_answer s k]
  cases takeWord (window s (k + 2) a) with
  | error r => rfl
  | ok p => exact congrArg Except.ok (addrText_eq_dec p.1).symm

theorem fetch_memAcc {s : State} {d : Bool} {w : Width} (hinside : s.ip < s.len)
    (hclass : classify (s.mem.get s.ip) = .memAcc d w) :
    ((fetch s).map fun i => recordOf i.form) = Pseudocode.shapeMemAcc s (s.mem.get s.ip) := by
  obtain ⟨hd, hw⟩ := fields_of_memAcc hclass
  rw [fetch_record_eq_answer, maxLen, window_of_inside hinside, decodeFormWith, classifyWith_strict, hclass,
    Pseudocode.shapeMemAcc, hd, hw]
  simp only [diraddr_eq_answer s 3]
  cases takeWord (window s 5 (s.ip + 1)) with
  | error r => rfl
  | ok p => cases d <;> rfl

/-- The pseudocode's target is the target of the record (R94). -/
theorem target_eq_targetText (r : Byte) : Pseudocode.target (signed8 r) = targetText r := by
  simp only [Pseudocode.target, targetText, gt_iff_lt, dec_of_nonneg (Int.natCast_nonneg _), Int.natAbs_natCast]

theorem shapeJump8_eq_answer (s : State) (mn : Text) :
    Pseudocode.shapeJump8 s mn = answer s (shapeJump8 mn) (takeByte (window s 5 (s.ip + 1))) := by
  rw [Pseudocode.shapeJump8, memRead1_eq_answer s 4]
  simp only [target_eq_targetText]
  cases takeByte (window s 5 (s.ip + 1)) <;> rfl

theorem fetch_jump {s : State} {cc : Jcc} (hinside : s.ip < s.len) (hclass : classify (s.mem.get s.ip) = .jump cc) :
    ((fetch s).map fun i => recordOf i.form) = Pseudocode.shapeJump8 s (jccName cc) := by
  rw [fetch_record_eq_answer, maxLen, window_of_inside hinside, decodeFormWith, classifyWith_strict, hclass,
    shapeJump8_eq_answer]
  cases takeByte (window s 5 (s.ip + 1)) <;> rfl

theorem fetch_loop {s : State} {lp : LoopOp} (hinside : s.ip < s.len) (hclass : classify (s.mem.get s.ip) = .loop lp) :
    ((fetch s).map fun i => recordOf i.form) = Pseudocode.shapeJump8 s (loopName lp) := by
  rw [fetch_record_eq_answer, maxLen, window_of_inside hinside, decodeFormWith, classifyWith_strict, hclass,
    shapeJump8_eq_answer]
  cases takeByte (window s 5 (s.ip + 1)) <;> rfl

/-! ### The shape IMM_RM (R106) -/

/-- R106 once the second byte has given mnemonic and sign-extend flag: the operand, then the immediate, sized for memory. -/
def immRmOperands (s : State) (mn : Text) (sx : Bool) (w : Width) (b1 : Byte) : Except Condition Decoded := do
  let (m, n) ← Pseudocode.rmoperand s (modField b1) (rmField b1) w (s.ip + 2)
  let (i, k) ← Pseudocode.imm s sx w (s.ip + 2 + n)
  return ⟨mn, m, if modField b1 ≠ 0b11#2 then sizePrefix w ++ i else i, 2 + n + k⟩

/-- The same by the decoder's readers. -/
def readImmRm (op : Op) (sx : Bool) (w : Width) (b1 : Byte) (bs : List Byte) : Except Reject (Form × List Byte) := do
  let (rm, bs) ← resolveRm (modField b1) (rmField b1) bs
  let (imm, bs) ← resolveImm sx w bs
  return (.immRm op rm imm, bs)

/-- An operand is memory unless its `mod` field is 11. -/
theorem isMemory_iff (rm : Rm) : isMemory rm = true ↔ rm.modBits ≠ 0b11#2 := by
  cases rm <;> simp [isMemory, Rm.modBits]

theorem immRmOperands_eq_answer (s : State) (op : Op) (sx : Bool) (w : Width) (b1 : Byte) :
    immRmOperands s (opName op) sx w b1 = answer s recordOf (readImmRm op sx w b1 (window s 4 (s.ip + 2))) := by
  rw [immRmOperands, readImmRm, rmoperand_eq_answer s _ _ w 2]
  cases hrm : resolveRm (modField b1) (rmField b1) (window s 4 (s.ip + 2)) with
  | error r => rfl
  | ok p =>
    obtain ⟨rm, rest⟩ := p
    have hdisp := Rm.dispLen_le rm
    have hrest : rest = window s (2 - rm.dispLen + 2) (s.ip + 2 + rm.dispLen) := by
      rw [resolveRm_window_rest hrm]
      congr 1
      omega
    have hmem := isMemory_iff rm
    rw [(resolveRm_ok hrm).1.modBits] at hmem
    simp only [answer, rmAnswer, imm_eq_answer s sx w (2 - rm.dispLen), ← hrest, ← hmem, bind, Except.bind]
    cases himm : resolveImm sx w rest with
    | error r => rfl
    | ok q =>
      obtain ⟨⟨-, rfl⟩, -⟩ := resolveImm_ok himm
      rfl

theorem fetch_aluImmRm {s : State} {sx : Bool} {w : Width} (hinside : s.ip < s.len)
    (hclass : classify (s.mem.get s.ip) = .aluImmRm sx w) :
    ((fetch s).map fun i => recordOf i.form) = (do
      let b1 ← memRead1 s (s.ip + 1)
      immRmOperands s (alu (regField b1)) sx w b1) := by
  rw [fetch_record_eq_answer, maxLen, window_of_inside hinside, decodeFormWith, classifyWith_strict, hclass]
  by_cases hb1 : s.ip + 1 < s.len
  · rw [window_of_inside hb1, memRead1_of_fits hb1]
    exact (immRmOperands_eq_answer s (.alu (AluOp.ofCode (regField (s.mem.get (s.ip + 1))))) sx w _).symm
  · rw [window_of_past_end (by omega), memRead1_of_past_end (by omega)]
    rfl

theorem fetch_movImmRm {s : State} {w : Width} (hinside : s.ip < s.len)
    (hclass : classify (s.mem.get s.ip) = .movImmRm w) :
    ((fetch s).map fun i => recordOf i.form) = (do
      let b1 ← memRead1 s (s.ip + 1)
      if regField b1 ≠ 0b000#3 then throw (.unsupportedOpcode (s.mem.get s.ip) s.ip)
      immRmOperands s movName false w b1) := by
  rw [fetch_record_eq_answer, maxLen, window_of_inside hinside, decodeFormWith, classifyWith_strict, hclass]
  by_cases hb1 : s.ip + 1 < s.len
  · rw [window_of_inside hb1, memRead1_of_fits hb1]
    simp only [takeByte_cons, bind, Except.bind, Config.strictMatch, and_true]
    split_ifs
    · rfl
    · exact (immRmOperands_eq_answer s .mov false w _).symm
  · rw [window_of_past_end (by omega), memRead1_of_past_end (by omega)]
    rfl

theorem shapeImmRm_of_aluImmRm (s : State) {b0 : Byte} {sx : Bool} {w : Width} (hclass : classify b0 = .aluImmRm sx w) :
    Pseudocode.shapeImmRm s b0 = (do
      let b1 ← memRead1 s (s.ip + 1)
      immRmOperands s (alu (regField b1)) sx w b1) := by
  obtain ⟨hs, hw⟩ := fields_of_aluImmRm hclass
  rw [Pseudocode.shapeImmRm, hs, hw]
  simp only [if_neg (movBits_of_aluImmRm hclass)]
  rfl

theorem shapeImmRm_of_movImmRm (s : State) {b0 : Byte} {w : Width} (hclass : classify b0 = .movImmRm w) :
    Pseudocode.shapeImmRm s b0 = (do
      let b1 ← memRead1 s (s.ip + 1)
      if regField b1 ≠ 0b000#3 then throw (.unsupportedOpcode b0 s.ip)
      immRmOperands s movName false w b1) := by
  rw [Pseudocode.shapeImmRm, (fields_of_movImmRm hclass).2]
  simp only [if_pos (movBits_of_movImmRm hclass)]
  cases memRead1 s (s.ip + 1) with
  | error c => rfl
  | ok b1 =>
    by_cases hreg : regField b1 ≠ 0b000#3
    · simp only [if_pos hreg, bind, Except.bind]
      rfl
    · simp only [if_neg hreg, bind, Except.bind]
      rfl

/-! ### The step (R100) -/

/-- The record of the instruction fetched is the one the pseudocode makes of the opcode byte, class by class. -/
theorem fetch_eq_decodeAt {s : State} (hinside : s.ip < s.len) :
    ((fetch s).map fun i => recordOf i.form) = Pseudocode.decodeAt s (s.mem.get s.ip) := by
  rw [Pseudocode.decodeAt]
  cases hclass : classify (s.mem.get s.ip) with
  | rmReg op d w => exact fetch_rmReg hinside hclass
  | immAcc op sx w => exact fetch_immAcc hinside hclass
  | aluImmRm sx w => exact (fetch_aluImmRm hinside hclass).trans (shapeImmRm_of_aluImmRm s hclass).symm
  | movImmRm w => exact (fetch_movImmRm hinside hclass).trans (shapeImmRm_of_movImmRm s hclass).symm
  | immReg w reg => exact fetch_immReg hinside hclass
  | memAcc d w => exact fetch_memAcc hinside hclass
  | jump cc => exact fetch_jump hinside hclass
  | loop lp => exact fetch_loop hinside hclass
  | unsupported =>
    rw [fetch_eq_answer, maxLen, window_of_inside hinside, decode_of_unsupported hclass]
    rfl

/-- At or past the end of the stream the read of the opcode byte is the truncation. -/
theorem fetch_of_past_end {s : State} (h : s.len ≤ s.ip) : fetch s = .error (.truncatedInstruction s.ip) := by
  rw [fetch_eq_answer, maxLen, window_of_past_end h]
  rfl

/-- A running step inside the stream concludes as the pseudocode does from the opcode byte. -/
theorem step_eq_decodeAt {s : State} (hrun : s.status = .running) (hinside : s.ip < s.len) :
    step s = .next (Pseudocode.conclude s (Pseudocode.decodeAt s (s.mem.get s.ip))) := by
  rw [step_eq_conclude hrun hinside.ne, fetch_eq_decodeAt hinside]

/-- Settles O33: a run that is over, the end of the stream, an opcode byte inside it, and one past its end. -/
theorem stepIsTheDispatcherStep : Obligations.StepIsTheDispatcherStep := by
  intro s
  by_cases hrun : s.status = .running
  · rw [Pseudocode.step, if_neg (not_not.mpr hrun)]
    obtain hinside | hend | hpast := lt_trichotomy s.ip s.len
    · rw [if_neg hinside.ne, memRead1_of_fits hinside, step_eq_decodeAt hrun hinside]
      rfl
    · rw [if_pos hend, step_at_end hrun hend]
      rfl
    · rw [if_neg hpast.ne', memRead1_of_past_end (by omega), step_eq_conclude hrun hpast.ne', fetch_of_past_end hpast.le]
      rfl
  · rw [Pseudocode.step, if_pos hrun, step_of_over hrun]

/-! ### From the bytes to the line -/

/-- Settles O35: 1100011w is `mov` of shape IMM_RM (R112), 1011wrrr is IMM_REG with its width and register (R113). -/
theorem movImmediateBytesPrint : Obligations.MovImmediateBytesPrint := by
  refine ⟨fun s w hrun hinside hb0 => ?_, fun s w reg hrun hinside hb0 => ?_⟩
  · rw [step_eq_decodeAt hrun hinside, hb0, Pseudocode.decodeAt, classify_movImmRm]
    simp only [shapeImmRm_of_movImmRm s (classify_movImmRm w)]
    rfl
  · rw [step_eq_decodeAt hrun hinside, hb0, Pseudocode.decodeAt, classify_immReg]
    simp only [Pseudocode.shapeImmReg, wShortField_immReg, regShortField_immReg]

/-- Settles O36: 101000dw is MEM_ACC with its direction and width (R114, R115). -/
theorem movAccumulatorBytesPrint : Obligations.MovAccumulatorBytesPrint := by
  intro s w hrun hinside
  have hstep (d : Bool) (hb0 : s.mem.get s.ip = opByte 0b101000#6 d w) :
      step s = .next (Pseudocode.conclude s (Pseudocode.shapeMemAcc s (opByte 0b101000#6 d w))) := by
    rw [step_eq_decodeAt hrun hinside, hb0, Pseudocode.decodeAt, classify_memAcc]
  refine ⟨fun hb0 => ?_, fun hb0 => ?_⟩
  · rw [hstep false hb0, Pseudocode.shapeMemAcc, Pseudocode.diraddr, wField_opByte, getLsbD_one_opByte]
    cases memRead2 s (s.ip + 1) <;> rfl
  · rw [hstep true hb0, Pseudocode.shapeMemAcc, Pseudocode.diraddr, wField_opByte, getLsbD_one_opByte]
    cases memRead2 s (s.ip + 1) <;> rfl

/-- The class of an opcode byte by the selector code in it: every code is the code of the mnemonic it selects. -/
theorem classify_rmReg_code (aop : BitVec 3) (d w : Bool) :
    classify (opByte (0b00#2 ++ aop ++ 0b0#1) d w) = .rmReg (.alu (AluOp.ofCode aop)) d (Width.ofBit w) := by
  simpa only [Op.rmRegBits, AluOp.code_ofCode] using classify_rmReg (.alu (AluOp.ofCode aop)) d w

theorem classify_immAcc_code (aop : BitVec 3) (w : Bool) :
    classify (opByte (0b00#2 ++ aop ++ 0b1#1) false w) = .immAcc (AluOp.ofCode aop) false (Width.ofBit w) := by
  simpa only [AluOp.code_ofCode] using classify_immAcc (AluOp.ofCode aop) w

theorem classify_jump_code (cc : BitVec 4) : classify (0b0111#4 ++ cc : BitVec (4 + 4)) = .jump (Jcc.ofCode cc) := by
  simpa only [Jcc.code_ofCode] using classify_jump (Jcc.ofCode cc)

theorem classify_loop_code (ll : BitVec 2) : classify (0b111000#6 ++ ll : BitVec (6 + 2)) = .loop (LoopOp.ofCode ll) := by
  simpa only [LoopOp.code_ofCode] using classify_loop (LoopOp.ofCode ll)

/-- Settles O37: 00aaa0dw is RM_REG with `alu[aaa]`, its direction and width (R120, R121). -/
theorem aluRegisterBytesPrint : Obligations.AluRegisterBytesPrint := by
  intro s aop w hrun hinside
  have hstep (d : Bool) (hb0 : s.mem.get s.ip = opByte (0b00#2 ++ aop ++ 0b0#1) d w) : step s =
      .next (Pseudocode.conclude s (Pseudocode.shapeRmReg s (alu aop) (opByte (0b00#2 ++ aop ++ 0b0#1) d w))) := by
    rw [step_eq_decodeAt hrun hinside, hb0, Pseudocode.decodeAt, classify_rmReg_code]
    rfl
  refine ⟨fun hb0 => ?_, fun hb0 => ?_⟩
  · rw [hstep false hb0, Pseudocode.shapeRmReg, wField_opByte, getLsbD_one_opByte]
    rfl
  · rw [hstep true hb0, Pseudocode.shapeRmReg, wField_opByte, getLsbD_one_opByte]
    rfl

/-- Settles O38: 100000sw is the arithmetic/logic group of shape IMM_RM (R122), 00aaa10w is IMM_ACC with `alu[aaa]` (R123). -/
theorem aluImmediateBytesPrint : Obligations.AluImmediateBytesPrint := by
  refine ⟨fun s sx w hrun hinside hb0 => ?_, fun s aop w hrun hinside hb0 => ?_⟩
  · rw [step_eq_decodeAt hrun hinside, hb0, Pseudocode.decodeAt, classify_aluImmRm]
    simp only [shapeImmRm_of_aluImmRm s (classify_aluImmRm sx w)]
    rfl
  · rw [step_eq_decodeAt hrun hinside, hb0, Pseudocode.decodeAt, classify_immAcc_code]
    simp only [Pseudocode.shapeImmAcc, wField_opByte, getLsbD_one_opByte]
    rfl

/-- Settles O39: 0111cccc and 111000ll are JUMP8 with the mnemonic their selector names (R140, R160). -/
theorem jumpBytesPrint : Obligations.JumpBytesPrint := by
  refine fun s hrun hinside => ⟨fun cc hb0 => ?_, fun ll hb0 => ?_⟩
  · rw [step_eq_decodeAt hrun hinside, hb0, Pseudocode.decodeAt, classify_jump_code]
    rfl
  · rw [step_eq_decodeAt hrun hinside, hb0, Pseudocode.decodeAt, classify_loop_code]
    rfl

end Sys2Proof.Machine
end

section
/-! Proofs for 60_exceptions.md: the opcode bytes that are refused (R181), and the instructions that are cut off (R182). -/

namespace Sys2Proof

/-- A refusal as unsupported looks at the first bytes alone: it stays when more bytes follow. -/
theorem decode_unsupported_append {bs : List Byte} {b0 : Byte} (h : decode bs = .error (.unsupportedOpcode b0))
    (more : List Byte) : decode (bs ++ more) = .error (.unsupportedOpcode b0) := by
  obtain he | ⟨b0', r, rfl, he, hclass | ⟨w, b1, r', hclass, rfl, hreg⟩⟩ := decode_error h
  · cases he
  · cases he
    exact decode_of_unsupported hclass
  · cases he
    exact decode_of_movImmRm_reg (r' ++ more) hclass hreg

/-- The first bytes of an instruction, short of its length, are a truncation: were they an instruction, its bytes would be decoded
from the whole encoding as well; were they refused, so would the encoding be. -/
theorem decode_proper_part {i : Instr} {part more : List Byte} (hwf : i.wellFormed = true)
    (hparts : encode i = part ++ more) (hmore : more ≠ []) : decode part = .error .truncated := by
  have hwhole : decode (part ++ more) = .ok (i, []) := by
    rw [← hparts, ← List.append_nil (encode i)]
    exact decodeOfEncode i [] hwf
  cases hpart : decode part with
  | ok p =>
    obtain ⟨j, rest⟩ := p
    obtain ⟨hj, hbytes⟩ := encodeOfDecode part j rest hpart
    have hshort : decode (part ++ more) = .ok (j, rest ++ more) := by
      rw [hbytes, List.append_assoc]
      exact decodeOfEncode j (rest ++ more) hj
    obtain ⟨-, hrest⟩ := Prod.mk.inj (Except.ok.inj (hshort.symm.trans hwhole))
    exact absurd (List.append_eq_nil_iff.mp hrest).2 hmore
  | error e =>
    obtain rfl | ⟨b0, r, -, rfl, -⟩ := decode_error hpart
    · rfl
    · cases (decode_unsupported_append hpart more).symm.trans hwhole

end Sys2Proof

namespace Sys2Proof.Machine

theorem step_of_decode_error {s : State} {r : Reject} (hrun : s.status = .running) (hinside : s.ip ≠ s.len)
    (h : decode (window s maxLen s.ip) = .error r) : step s = .next (s.setStatus (.fault (conditionOf s.ip r))) :=
  step_of_fetch_error hrun hinside (by rw [fetch, h])

theorem classify_C6_C7 (b0 : Byte) (h : b0 = 0xC6#8 ∨ b0 = 0xC7#8) : ∃ w, classify b0 = .movImmRm w := by
  obtain rfl | rfl := h
  · exact ⟨.byte, by decide⟩
  · exact ⟨.word, by decide⟩

/-- Settles O40: the window begins with the byte at `ip`, and the decoder refuses it by its class or by the `reg` field after it. -/
theorem unsupportedOpcodeHalts : Obligations.UnsupportedOpcodeHalts := by
  refine fun s hrun hinside => ⟨fun hclass => ?_, fun hb0 hsecond hreg => ?_⟩
  · refine step_of_decode_error (r := .unsupportedOpcode _) hrun hinside.ne ?_
    rw [maxLen, window_of_inside hinside, decode_of_unsupported hclass]
  · obtain ⟨w, hclass⟩ := classify_C6_C7 _ hb0
    refine step_of_decode_error (r := .unsupportedOpcode _) hrun hinside.ne ?_
    rw [maxLen, window_of_inside hinside, window_of_inside hsecond, decode_of_movImmRm_reg _ hclass hreg]

/-- Settles O41: the window is the part that is there, and a proper part is a truncation. -/
theorem properPartOfAnInstructionIsTruncated : Obligations.ProperPartOfAnInstructionIsTruncated := by
  intro i k s hwf hpos hk hrun hlen hbytes
  obtain ⟨hencoded, -, hlong⟩ := Laws.LengthIsEncoded.any i
  have hpart : ((encode i).take k).length = k := by rw [List.length_take, hencoded, Nat.min_eq_left hk.le]
  have hwindow : window s maxLen s.ip = (encode i).take k := by
    rw [window_eq_take s ((encode i).take k) maxLen s.ip (by rw [hpart, hlen]), List.take_of_length_le]
    · rw [hpart, maxLen]
      omega
    · intro j hj
      rw [hpart] at hj
      rw [hbytes j hj, List.getD_eq_getElem?_getD, List.getD_eq_getElem?_getD, List.getElem?_take_of_lt hj]
  have hmore : (encode i).drop k ≠ [] := by
    rw [ne_eq, List.drop_eq_nil_iff, hencoded]
    omega
  have htruncated := decode_proper_part hwf (List.take_append_drop k (encode i)).symm hmore
  exact step_of_decode_error hrun (by omega) (hwindow ▸ htruncated)

end Sys2Proof.Machine
end

section
/-! Proofs for 30_encoding.md and 40_operand_resolvers.md: the line of every instruction is a line of the grammar (R68), and a line of
the grammar is printable text before one newline (92 D16). -/

namespace Sys2Proof.Machine

/-! ### The grammar (R68) -/

theorem regname_isRegister (w : Width) (c : BitVec 3) : IsRegister (regname w c) := by
  unfold IsRegister
  cases w with
  | byte => revert c; decide
  | word => revert c; decide

theorem acc_isRegister (w : Width) : IsRegister (acc w) := acc_eq_regname w ▸ regname_isRegister w 0

theorem eabase_mem : ∀ rm, eabase rm ∈ baseNames := by decide

theorem baseText_isMemory {base : Text} (hbase : base ∈ baseNames) (disp : Int) : IsMemory (baseText base disp) := by
  refine .inl ⟨base, hbase, ?_⟩
  obtain hneg | hzero | hpos := lt_trichotomy disp 0
  · exact .inr ⟨_, decNat_isNatural _, .inr (baseText_of_neg base hneg)⟩
  · exact .inl (baseText_of_zero base hzero)
  · exact .inr ⟨_, decNat_isNatural _, .inl (baseText_of_pos base hpos)⟩

theorem addrText_isMemory (a : Word) : IsMemory (addrText a) := .inr ⟨_, decNat_isNatural _, rfl⟩

theorem rmText_isOperand (w : Width) (rm : Rm) : IsRegister (rmText w rm) ∨ IsMemory (rmText w rm) := by
  cases rm with
  | reg c => exact .inl (regname_isRegister w c)
  | direct a => exact .inr (addrText_isMemory a)
  | base r => exact .inr (baseText_isMemory (eabase_mem r) 0)
  | disp8 r d => exact .inr (baseText_isMemory (eabase_mem r) (signed8 d))
  | disp16 r d => exact .inr (baseText_isMemory (eabase_mem r) (signed16 d))

theorem immText_isImmediate (imm : Imm) : IsImmediate (immText imm) := by
  rw [immText]
  obtain hneg | hnonneg := lt_or_ge (signed16 (immValue imm)) 0
  · exact .inr ⟨_, decNat_isNatural _, dec_of_neg hneg⟩
  · exact .inl (dec_of_nonneg hnonneg ▸ decNat_isNatural _)

theorem sizePrefix_isSizedImm (w : Width) {t : Text} (h : IsImmediate t) : IsSizedImm (sizePrefix w ++ t) := by
  cases w with
  | byte => exact ⟨t, h, .inl rfl⟩
  | word => exact ⟨t, h, .inr rfl⟩

theorem targetText_isTarget (r : Byte) : IsTarget (targetText r) := by
  obtain hneg | hzero | hpos := lt_trichotomy (signed8 r) 0
  · exact .inr ⟨_, decNat_isNatural _, .inr (targetText_of_neg hneg)⟩
  · exact .inl (targetText_of_zero hzero)
  · exact .inr ⟨_, decNat_isNatural _, .inl (targetText_of_pos hpos)⟩

theorem aluName_mem (op : AluOp) : aluName op ∈ dataMnemonics := by cases op <;> decide

theorem opName_mem (op : Op) : opName op ∈ dataMnemonics := by
  cases op with
  | mov => decide
  | alu op => exact aluName_mem op

theorem jccName_mem (cc : Jcc) : jccName cc ∈ jumpMnemonics := by cases cc <;> decide

theorem loopName_mem (lp : LoopOp) : loopName lp ∈ jumpMnemonics := by cases lp <;> decide

/-- A data instruction's record: a data mnemonic, a register or memory destination, and a source. -/
structure IsDataRecord (d : Decoded) : Prop where
  mn : d.mn ∈ dataMnemonics
  dst : IsRegister d.dst ∨ IsMemory d.dst
  src : IsRegister d.src ∨ IsMemory d.src ∨ IsImmediate d.src ∨ IsSizedImm d.src
  src_ne : d.src ≠ []

/-- A jump's record: a jump mnemonic and a target alone. -/
structure IsJumpRecord (d : Decoded) : Prop where
  mn : d.mn ∈ jumpMnemonics
  dst : IsTarget d.dst
  src_nil : d.src = []

/-- A register or memory operand as a source. -/
theorem rmText_isSource (w : Width) (rm : Rm) : IsRegister (rmText w rm) ∨ IsMemory (rmText w rm) ∨
    IsImmediate (rmText w rm) ∨ IsSizedImm (rmText w rm) :=
  (rmText_isOperand w rm).imp_right .inl

theorem recordOf_grammar (f : Form) : IsDataRecord (recordOf f) ∨ IsJumpRecord (recordOf f) := by
  cases f with
  | rmReg op d w rm reg =>
    cases d with
    | false => exact .inl ⟨opName_mem op, rmText_isOperand w rm, .inl (regname_isRegister w reg), regname_ne w reg⟩
    | true => exact .inl ⟨opName_mem op, .inl (regname_isRegister w reg), rmText_isSource w rm, rmText_ne w rm⟩
  | immAcc op imm =>
    exact .inl ⟨aluName_mem op, .inl (acc_isRegister _), .inr (.inr (.inl (immText_isImmediate imm))), immText_ne imm⟩
  | immRm op rm imm =>
    refine .inl ⟨opName_mem op, rmText_isOperand _ rm, ?_, ?_⟩
    · simp only [recordOf, shapeImmRm]
      split
      · exact .inr (.inr (.inr (sizePrefix_isSizedImm _ (immText_isImmediate imm))))
      · exact .inr (.inr (.inl (immText_isImmediate imm)))
    · simp only [recordOf, shapeImmRm, ← sized_eq]
      exact sized_ne rm _ (immText_ne imm)
  | immReg reg imm =>
    exact .inl ⟨opName_mem .mov, .inl (regname_isRegister _ reg), .inr (.inr (.inl (immText_isImmediate imm))), immText_ne imm⟩
  | memAcc d w a =>
    cases d with
    | false => exact .inl ⟨opName_mem .mov, .inl (acc_isRegister w), .inr (.inl (addrText_isMemory a)), addrText_ne a⟩
    | true => exact .inl ⟨opName_mem .mov, .inr (addrText_isMemory a), .inl (acc_isRegister w), acc_ne w⟩
  | jump cc r => exact .inr ⟨jccName_mem cc, targetText_isTarget r, rfl⟩
  | loop lp r => exact .inr ⟨loopName_mem lp, targetText_isTarget r, rfl⟩

/-- Every instruction's line is one of the grammar. -/
theorem lineOf_isLine (i : Instr) : IsLine (lineOf i) := by
  rw [← toInstr_form i]
  obtain ⟨hmn, hdst, hsrc, hne⟩ | ⟨hmn, hdst, hnil⟩ := recordOf_grammar i.form
  · exact .inl ⟨_, hmn, _, _, hdst, hsrc, lineOf_of_src hne⟩
  · exact .inr ⟨_, hmn, _, hdst, lineOf_of_no_src hnil⟩

/-! ### The characters of a line (92 D16) -/

/-- The characters of a line but for the newline at its end. -/
def printableChar (c : Char) : Bool := decide (32 ≤ c.toNat) && decide (c.toNat ≤ 126)

theorem asciiChar_of_printable {c : Char} (h : printableChar c = true) : asciiChar c = true :=
  Bool.or_eq_true_iff.mpr (.inr h)

theorem newline_notMem_of_printable {t : Text} (h : t.all printableChar = true) : '\n' ∉ t :=
  fun hmem => absurd (List.all_eq_true.mp h '\n' hmem) (by decide)

theorem printable_of_digits {t : Text} (h : ∀ x ∈ t, x ∈ digits) : t.all printableChar = true := by
  have hdigits : digits.all printableChar = true := by decide
  exact List.all_eq_true.mpr fun x hx => List.all_eq_true.mp hdigits x (h x hx)

theorem IsNatural.printable {t : Text} (h : IsNatural t) : t.all printableChar = true := by
  obtain rfl | ⟨c, cs, rfl, hc, hcs⟩ := h
  · decide
  · exact printable_of_digits (List.forall_mem_cons.mpr ⟨List.mem_cons_of_mem '0' hc, hcs⟩)

theorem IsImmediate.printable {t : Text} (h : IsImmediate t) : t.all printableChar = true := by
  obtain hn | ⟨n, hn, rfl⟩ := h
  · exact hn.printable
  · rw [List.all_cons, hn.printable]
    decide

/-- The names of a list whose names are all printable. -/
theorem printable_of_mem {names : List Text} (hnames : names.all (fun n => n.all printableChar) = true) {t : Text}
    (h : t ∈ names) : t.all printableChar = true :=
  List.all_eq_true.mp hnames t h

theorem IsRegister.printable {t : Text} (h : IsRegister t) : t.all printableChar = true :=
  printable_of_mem (by decide) h

theorem IsMemory.printable {t : Text} (h : IsMemory t) : t.all printableChar = true := by
  obtain ⟨b, hb, hform⟩ | ⟨n, hn, rfl⟩ := h
  · have hbase : b.all printableChar = true := printable_of_mem (names := baseNames) (by decide) hb
    obtain rfl | ⟨n, hn, rfl | rfl⟩ := hform
    · simp [hbase, printableChar]
    · simp [hbase, hn.printable, printableChar]
    · simp [hbase, hn.printable, printableChar]
  · simp [hn.printable, printableChar]

theorem IsSizedImm.printable {t : Text} (h : IsSizedImm t) : t.all printableChar = true := by
  obtain ⟨n, hn, rfl | rfl⟩ := h
  · simp [hn.printable, printableChar]
  · simp [hn.printable, printableChar]

theorem IsTarget.printable {t : Text} (h : IsTarget t) : t.all printableChar = true := by
  obtain rfl | ⟨n, hn, rfl | rfl⟩ := h
  · decide
  · simp [hn.printable, printableChar]
  · simp [hn.printable, printableChar]

/-- A line is printable text and the newline. -/
theorem IsLine.body {t : Text} (h : IsLine t) : ∃ body, t = body ++ ['\n'] ∧ body.all printableChar = true := by
  obtain ⟨mn, hmn, dst, src, hdst, hsrc, rfl⟩ | ⟨mn, hmn, dst, hdst, rfl⟩ := h
  · refine ⟨_, rfl, ?_⟩
    have hmn : mn.all printableChar = true := printable_of_mem (names := dataMnemonics) (by decide) hmn
    have hdst : dst.all printableChar = true := hdst.elim IsRegister.printable IsMemory.printable
    have hsrc : src.all printableChar = true := by
      obtain h | h | h | h := hsrc
      exacts [h.printable, h.printable, h.printable, h.printable]
    simp [hmn, hdst, hsrc, printableChar]
  · refine ⟨_, rfl, ?_⟩
    have hmn : mn.all printableChar = true := printable_of_mem (names := jumpMnemonics) (by decide) hmn
    simp [hmn, hdst.printable, printableChar]

theorem lineOf_body (i : Instr) : ∃ body, lineOf i = body ++ ['\n'] ∧ body.all printableChar = true :=
  (lineOf_isLine i).body

theorem lineOf_ascii (i : Instr) : (lineOf i).all asciiChar = true := by
  obtain ⟨body, hline, hbody⟩ := lineOf_body i
  rw [hline, List.all_append, Bool.and_eq_true]
  refine ⟨List.all_eq_true.mpr fun c hc => asciiChar_of_printable (List.all_eq_true.mp hbody c hc), by decide⟩

end Sys2Proof.Machine
end

section
/-! Proofs for 10_state.md, 40_operand_resolvers.md and 60_exceptions.md: the rules over all steps, from what a step can do (R100). -/

namespace Sys2Proof.Machine

/-! ### Next states, the end of a run and the fetch -/

/-- Settles O43: a step by its states, an instruction by its two cases. -/
theorem stepAlwaysAnswersANextState : Obligations.StepAlwaysAnswersANextState := by
  refine ⟨fun s => ?_, fun i s => ?_⟩
  · obtain ⟨t, hstep, -⟩ := step_next s
    exact ⟨t, hstep⟩
  · obtain ⟨-, h⟩ | ⟨-, h⟩ := exec_cases i s
    · exact ⟨_, h⟩
    · exact ⟨_, h⟩

/-- Settles O42: the two ends of a run, and the empty stream. -/
theorem finishedRunsStayAsTheyAre : Obligations.FinishedRunsStayAsTheyAre :=
  ⟨fun _ => step_of_over, fun _ => step_at_end, step_at_end rfl rfl, rfl⟩

/-- Settles O32: the window decides what is fetched, and the step takes what was fetched. -/
theorem stepRunsTheDecodedInstruction : Obligations.StepRunsTheDecodedInstruction :=
  fun s hrun hinside => ⟨fun i rest h => step_of_fetch_ok hrun hinside (by rw [fetch, maxLen, h]),
    fun b0 h => step_of_decode_error hrun hinside h, fun h => step_of_decode_error hrun hinside h⟩

/-! ### Conditions (R180 to R189) -/

/-- Settles O44: only a refused fetch raises, and it names the offset. -/
theorem conditionIsPrecise : Obligations.ConditionIsPrecise := by
  intro s t c hrun h hfault
  cases stepTo_of_step h with
  | stays hover => exact absurd hrun hover
  | ends => cases hfault
  | raises _ _ hfetch =>
    cases hfault
    exact ⟨rfl, fetch_error hfetch⟩
  | prints => cases hrun.symm.trans hfault

/-- A fault after a step is the one from before it, or one of the two conditions a stream can raise. -/
theorem fault_of_step {s t : State} {c : Condition} (h : step s = .next t) (hfault : t.status = .fault c) :
    s.status = .fault c ∨ c = .truncatedInstruction s.ip ∨ c = .unsupportedOpcode (s.mem.get s.ip) s.ip := by
  by_cases hrun : s.status = .running
  · exact .inr ((conditionIsPrecise s t c hrun h hfault).2.imp_right And.right)
  · cases (step_of_over hrun).symm.trans h
    exact .inl hfault

/-- Settles O45: a fault is old, or one of the two conditions a stream can raise. -/
theorem internalConditionsAreUnreachable : Obligations.InternalConditionsAreUnreachable := by
  refine ⟨fun s t o h => ⟨fun hfault => ?_, fun hfault => ?_⟩, fun rm bs => rfl⟩
  · exact (fault_of_step h hfault).resolve_right (by simp)
  · exact (fault_of_step h hfault).resolve_right (by simp)

theorem deliveredText_fault {s : State} {c : Condition} (h : s.status = .fault c) :
    deliveredText .flagged s = some s.out ∧ deliveredText .discarded s = none ∧
      hostReport s = some (s.status, s.out, s.ip) := by
  simp only [deliveredText, hostReport, h, and_self]

theorem deliveredText_done {s : State} (p : ErrorOutputPolicy) (h : s.status = .done) :
    deliveredText p s = some s.out ∧ hostReport s = some (s.status, s.out, s.ip) := by
  simp only [deliveredText, hostReport, h, and_self]

/-- A step of a running state into Done changes only the status. -/
theorem done_of_step {s t : State} (hrun : s.status = .running) (h : step s = .next t) (hdone : t.status = .done) :
    t = s.setStatus .done := by
  cases stepTo_of_step h with
  | stays hover => exact absurd hrun hover
  | ends => rfl
  | raises => cases hdone
  | prints => cases hrun.symm.trans hdone

/-- Settles O46: a step that ends a run keeps `out` and `ip`, and the policies speak of the state after it. -/
theorem policyOfTheOutputAfterAFault : Obligations.PolicyOfTheOutputAfterAFault := by
  refine ⟨rfl, fun s t c hrun h hfault => ?_, fun s t p hrun h hdone => ?_, fun s c => deliveredText_fault,
    fun s p => deliveredText_done p, fun s hrun => ?_⟩
  · obtain ⟨rfl, -⟩ := conditionIsPrecise s t c hrun h hfault
    exact ⟨rfl, rfl, rfl⟩
  · cases done_of_step hrun h hdone
    exact deliveredText_done p rfl
  · rw [hostReport, hrun]

/-! ### The pointer and the output -/

/-- Settles O48: only a printed instruction moves `ip`, and it fits into the stream. -/
theorem pointerStaysInBounds : Obligations.PointerStaysInBounds := by
  intro s t hbound h
  have hlen := (step_keeps_stream h).2
  have hmax {n : Nat} (hn : n ≤ s.len) (bound : Option Nat) (hfits : fitsMaxLen bound s.len) : fitsMaxLen bound n := by
    cases bound with
    | none => trivial
    | some m => exact hn.trans hfits
  cases stepTo_of_step h with
  | stays hover => exact ⟨le_rfl, hbound, hmax hbound, fun hrun => absurd hrun hover, absurd rfl⟩
  | ends => exact ⟨le_rfl, hbound, hmax hbound, fun _ _ => rfl, absurd rfl⟩
  | raises hrun hinside => exact ⟨le_rfl, hbound, hmax hbound, fun _ hend => absurd hend hinside, absurd rfl⟩
  | @prints i hrun hfetch hfits =>
    have hpos := (Instr.len_bounds i).1
    exact ⟨Nat.le_add_right _ _, hfits, hmax hfits, fun _ hend => by omega, fun _ => ⟨i, hfetch, rfl, rfl⟩⟩

/-- Settles O49: a step that prints appends the line's text and its newline; the others of a running state change the status alone. -/
theorem progressOfAStep : Obligations.ProgressOfAStep := by
  intro s t hrun h
  cases stepTo_of_step h with
  | stays hover => exact absurd hrun hover
  | ends => exact .inl ⟨nofun, rfl⟩
  | raises => exact .inl ⟨nofun, rfl⟩
  | @prints i _ hfetch hfits =>
    obtain ⟨hshort, hlong⟩ := Instr.len_bounds i
    obtain ⟨body, hline, hbody⟩ := lineOf_body i
    exact .inr ⟨i, body, hfetch, hshort, hlong, newline_notMem_of_printable hbody, hline ▸ rfl⟩

/-- What a step does to the output: nothing, or the line of the instruction fetched is appended and `ip` moves on. -/
theorem out_of_step {s t : State} (h : step s = .next t) : (t.out = s.out ∧ t.ip = s.ip) ∨
    ∃ i, fetch s = .ok i ∧ t.ip = s.ip + i.len ∧ t.out = s.out ++ lineOf i := by
  cases stepTo_of_step h with
  | stays | ends | raises => exact .inl ⟨rfl, rfl⟩
  | prints _ hfetch => exact .inr ⟨_, hfetch, rfl, rfl⟩

/-- A step keeps what the output begins with. -/
theorem out_extends {s t : State} (h : step s = .next t) : s.out <+: t.out := by
  obtain ⟨hout, -⟩ | ⟨i, -, -, hout⟩ := out_of_step h
  · rw [hout]
  · rw [hout]
    exact List.prefix_append _ _

theorem hostReport_of_over {s : State} (hover : s.status ≠ .running) : hostReport s = some (s.status, s.out, s.ip) := by
  cases hstatus : s.status with
  | running => exact absurd hstatus hover
  | done => rw [hostReport, hstatus]
  | fault c => rw [hostReport, hstatus]

/-- Settles O50: a step's effect on the output, with the line as printable text before its newline. -/
theorem outputIsAppendOnly : Obligations.OutputIsAppendOnly := by
  refine ⟨State.start_out, fun s t h => ⟨?_, fun hheader => hheader.trans (out_extends h)⟩, fun s => hostReport_of_over⟩
  refine (out_of_step h).imp_right fun ⟨i, hfetch, hip, hout⟩ => ?_
  obtain ⟨body, hline, hbody⟩ := lineOf_body i
  exact ⟨i, body, hfetch, hip, hline ▸ hout, newline_notMem_of_printable hbody,
    List.all_eq_true.mpr fun c hc => asciiChar_of_printable (List.all_eq_true.mp hbody c hc)⟩

/-- Settles O51: what a step appends is the line of an instruction. -/
theorem everyLineMatchesTheGrammar : Obligations.EveryLineMatchesTheGrammar := by
  intro s t h
  refine (out_of_step h).imp_right fun ⟨i, _, hip, hout⟩ => ⟨?_, lineOf i, lineOf_isLine i, hout⟩
  have hshort := (Instr.len_bounds i).1
  omega

/-! ### The invariant -/

theorem statusFits_of_running {s : State} (h : s.status = .running) : statusFits s := by
  rw [statusFits, h]
  trivial

/-- A condition raised inside the stream fits the state. -/
theorem statusFits_of_fetch_error {s : State} {c : Condition} (hinside : s.ip < s.len) (hfetch : fetch s = .error c) :
    statusFits (s.setStatus (.fault c)) := by
  obtain rfl | ⟨-, rfl⟩ := fetch_error hfetch
  · exact ⟨rfl, hinside⟩
  · exact ⟨rfl, hinside, rfl⟩

theorem header_ascii : header.all asciiChar = true := by decide

theorem inv_start (bs : List Byte) : Inv (State.start bs) where
  wf := State.start_wf bs
  within := State.start_within bs
  bound := Nat.zero_le _
  headed := List.prefix_rfl
  ascii := header_ascii
  fits := trivial

/-- Settles O53: the start on any stream, and the reset state as the start on the empty one. -/
theorem invariantHoldsAtStart : Obligations.InvariantHoldsAtStart := ⟨inv_start [], inv_start⟩

/-- Settles O54: the stream and `out` by their frames, the status by what the step did. -/
theorem everyStepKeepsTheInvariant : Obligations.EveryStepKeepsTheInvariant := by
  intro s t hinv h
  obtain ⟨hwf, hwithin, hbound, hheaded, hascii, hfits⟩ := hinv
  cases stepTo_of_step h with
  | stays => exact ⟨hwf, hwithin, hbound, hheaded, hascii, hfits⟩
  | ends _ hend => exact ⟨hwf, hwithin, hbound, hheaded, hascii, hend⟩
  | raises _ hinside hfetch =>
    exact ⟨hwf, hwithin, hbound, hheaded, hascii, statusFits_of_fetch_error (lt_of_le_of_ne hbound hinside) hfetch⟩
  | @prints i hrun _ hend =>
    refine ⟨hwf, hwithin, hend, hheaded.trans (List.prefix_append _ _), ?_, statusFits_of_running hrun⟩
    rw [State.advance_out, List.all_append, hascii, lineOf_ascii]
    rfl

/-! ### A placed word -/

/-- A window as long as the bytes that stand there reads them. -/
theorem window_eq_of_bytes (s : State) (bs : List Byte) : ∀ a, a + bs.length ≤ s.len →
    (∀ j, j < bs.length → s.mem.get (a + j) = bs.getD j 0#8) → window s bs.length a = bs := by
  induction bs with
  | nil => intros; rfl
  | cons b bs ih =>
    intro a hlen hbytes
    simp only [List.length_cons] at hlen hbytes
    have hfirst := hbytes 0 (by omega)
    rw [List.length_cons, window_of_inside (by omega), ih (a + 1) (by omega)]
    · simpa using hfirst
    · intro j hj
      have hnext := hbytes (j + 1) (by omega)
      rwa [show a + (j + 1) = a + 1 + j by omega, List.getD_cons_succ] at hnext

theorem tableBytes_length (nbits w : Nat) : (tableBytes nbits w).length = maxLen := by
  rw [tableBytes]
  split <;> rfl

/-- The window at `ip` is the word that was placed there. -/
theorem window_withFetchWord (s : State) (nbits w : Nat) :
    window (s.withFetchWord nbits w) maxLen s.ip = tableBytes nbits w := by
  rw [← tableBytes_length nbits w]
  exact window_eq_of_bytes _ _ _ (le_max_right _ _) fun j hj => Memory.get_setBytes _ _ _ j hj

theorem decode_of_decodeTableWord {nbits w : Nat} {i : Instr} (h : decodeTableWord nbits w = some i) :
    ∃ rest, decode (tableBytes nbits w) = .ok (i, rest) := by
  rw [decodeTableWord] at h
  split at h
  · rename_i j rest hdecode
    cases h
    exact ⟨rest, hdecode⟩
  · cases h

/-- Settles O60: the placed word is the window, so it is fetched and, being fetched, fits. -/
theorem placedWordIsDecodedNext : Obligations.PlacedWordIsDecodedNext := by
  intro s nbits w i h
  obtain ⟨rest, hdecode⟩ := decode_of_decodeTableWord h
  have hfetch : fetch (s.withFetchWord nbits w) = .ok i := by
    rw [fetch, show (s.withFetchWord nbits w).ip = s.ip from rfl, window_withFetchWord, hdecode]
  have hfits := fetch_fits hfetch
  have hshort := (Instr.len_bounds i).1
  exact ⟨step_of_fetch_ok rfl (by omega) hfetch, _, exec_of_fits i _ hfits, rfl, rfl, rfl⟩

end Sys2Proof.Machine
end

section
/-! Proofs for 40_operand_resolvers.md and 70_reset_and_hazards.md: whole runs. A run ends (R101), and what it has decoded at any time is
a sequence of instructions that tiles the stream up to `ip` (R204). -/

namespace Sys2Proof.Machine

/-! ### Runs -/

theorem run_succ {s t : State} (h : step s = .next t) (k : Nat) : core.run (k + 1) s = core.run k t := by
  have hcore : core.step s = .next t := h
  simp only [Host.Core.run, hcore]

theorem run_of_over {s : State} (hover : s.status ≠ .running) (k : Nat) : core.run k s = .next s := by
  induction k with
  | zero => rfl
  | succ k ih => rw [run_succ (step_of_over hover), ih]

/-- A run goes on from where its first part got to. -/
theorem run_add {m : Nat} {s t : State} (h : core.run m s = .next t) (n : Nat) :
    core.run (m + n) s = core.run n t := by
  induction m generalizing s with
  | zero =>
    cases h
    rw [Nat.zero_add]
  | succ m ih =>
    obtain ⟨u, hstep, -⟩ := step_next s
    rw [run_succ hstep] at h
    rw [Nat.add_right_comm, run_succ hstep, ih h]

/-- What every step keeps, every run keeps. -/
theorem run_keeps {P : State → Prop} (hstep : ∀ s t, P s → step s = .next t → P t) {k : Nat} {s t : State}
    (hs : P s) (h : core.run k s = .next t) : P t := by
  induction k generalizing s with
  | zero =>
    cases h
    exact hs
  | succ k ih =>
    obtain ⟨u, hu, -⟩ := step_next s
    exact ih (hstep s u hs hu) (run_succ hu k ▸ h)

/-! ### Termination (R101) -/

/-- Twice as many steps as bytes are left end the run: each step that does not end it takes at least two bytes. -/
theorem run_ends (k : Nat) (s : State) (hbound : s.ip ≤ s.len) (hleft : s.len - s.ip < 2 * k) :
    ∃ t, core.run k s = .next t ∧ t.status ≠ .running := by
  induction k generalizing s with
  | zero => omega
  | succ k ih =>
    obtain ⟨t, hstep, hto⟩ := step_next s
    rw [run_succ hstep]
    cases hto with
    | stays hover => exact ⟨s, run_of_over hover k, hover⟩
    | ends => exact ⟨_, run_of_over (s := s.setStatus .done) nofun k, nofun⟩
    | @raises c => exact ⟨_, run_of_over (s := s.setStatus (.fault c)) nofun k, nofun⟩
    | @prints i _ _ hfits =>
      have hshort := (Instr.len_bounds i).1
      refine ih _ hfits ?_
      simp only [State.advance_len, State.advance_ip]
      omega

/-- Settles O55: the steps allowed are more than half the bytes left. -/
theorem runsTerminate : Obligations.RunsTerminate :=
  fun s hbound => run_ends _ s hbound (by omega)

/-! ### The stream up to the pointer -/

/-- The window at `ip` when the stream is the bytes handed over. -/
theorem window_of_stream {bs : List Byte} {s : State} (hmem : s.mem = (State.start bs).mem) (hlen : s.len = bs.length)
    (hip : s.ip ≤ bs.length) (k : Nat) : window s k s.ip = (bs.drop s.ip).take k := by
  refine window_eq_take s (bs.drop s.ip) k s.ip (by rw [List.length_drop, hlen]; omega) fun j hj => ?_
  rw [List.length_drop] at hj
  rw [hmem, State.start_get bs _ (by omega), List.getD_eq_getElem?_getD, List.getD_eq_getElem?_getD, List.getElem?_drop]

theorem decode_of_fetch {s : State} {i : Instr} (h : fetch s = .ok i) :
    ∃ rest, decode (window s maxLen s.ip) = .ok (i, rest) := by
  rw [fetch] at h
  split at h
  · rename_i j rest hdecode
    cases h
    exact ⟨rest, hdecode⟩
  · cases h

/-- The bytes at `ip` are those of the instruction fetched there. -/
theorem encode_of_fetch {bs : List Byte} {s : State} {i : Instr} (hmem : s.mem = (State.start bs).mem)
    (hlen : s.len = bs.length) (hip : s.ip ≤ bs.length) (hfetch : fetch s = .ok i) :
    i.wellFormed = true ∧ (bs.drop s.ip).take i.len = encode i := by
  obtain ⟨rest, hdecode⟩ := decode_of_fetch hfetch
  obtain ⟨hwf, hwindow⟩ := encodeOfDecode _ _ _ hdecode
  obtain ⟨hencoded, -, hlong⟩ := Laws.LengthIsEncoded.any i
  rw [window_of_stream hmem hlen hip] at hwindow
  refine ⟨hwf, ?_⟩
  calc (bs.drop s.ip).take i.len = ((bs.drop s.ip).take maxLen).take i.len := by
        rw [List.take_take, maxLen, Nat.min_eq_left hlong]
    _ = encode i := by rw [hwindow, ← hencoded, List.take_left]

theorem assemble_append (is js : List Instr) : assemble (is ++ js) = assemble is ++ assemble js := List.flatMap_append

theorem assemble_singleton (i : Instr) : assemble [i] = encode i := List.flatMap_singleton ..

theorem listing_append_singleton (is : List Instr) (i : Instr) : listing (is ++ [i]) = listing is ++ lineOf i := by
  rw [listing, List.flatMap_append, List.flatMap_singleton, ← List.append_assoc, listing]

/-- What a run on the stream `bs` has done so far: it has left the stream as it was, and decoded the bytes up to `ip` as a sequence
of instructions whose lines `out` lists. -/
structure Listed (bs : List Byte) (s : State) : Prop where
  mem : s.mem = (State.start bs).mem
  len : s.len = bs.length
  bound : s.ip ≤ bs.length
  tiled : ∃ is : List Instr, (∀ i ∈ is, i.wellFormed = true) ∧ bs.take s.ip = assemble is ∧ s.out = listing is

theorem listed_start (bs : List Byte) : Listed bs (State.start bs) :=
  ⟨rfl, rfl, Nat.zero_le _, [], nofun, rfl, (List.append_nil _).symm⟩

/-- A step that prints adds its instruction to the sequence; the others leave it. -/
theorem Listed.step {bs : List Byte} (s t : State) (hlisted : Listed bs s) (h : step s = .next t) : Listed bs t := by
  obtain ⟨hmem, hlen, hbound, is, hwf, hbytes, hout⟩ := hlisted
  cases stepTo_of_step h with
  | stays | ends | raises => exact ⟨hmem, hlen, hbound, is, hwf, hbytes, hout⟩
  | @prints i _ hfetch hfits =>
    obtain ⟨hi, hencode⟩ := encode_of_fetch hmem hlen hbound hfetch
    refine ⟨hmem, hlen, hlen ▸ hfits, is ++ [i], ?_, ?_, ?_⟩
    · exact List.forall_mem_append.mpr ⟨hwf, List.forall_mem_singleton.mpr hi⟩
    · rw [State.advance_ip, List.take_add, hbytes, hencode, assemble_append, assemble_singleton]
    · rw [State.advance_out, hout, listing_append_singleton]

theorem listed_of_run {bs : List Byte} {k : Nat} {t : State} (h : core.run k (State.start bs) = .next t) : Listed bs t :=
  run_keeps Listed.step (listed_start bs) h

/-- A run that is done stands at the end of its stream. -/
theorem ip_of_done {bs : List Byte} {k : Nat} {t : State} (h : core.run k (State.start bs) = .next t)
    (hdone : t.status = .done) : t.ip = bs.length := by
  have hfits := (run_keeps everyStepKeepsTheInvariant (inv_start bs) h).fits
  rw [statusFits, hdone] at hfits
  exact hfits.trans (listed_of_run h).len

/-- Settles O56: the sequence decoded up to the end of the stream. -/
theorem doneMeansTheStreamIsTiled : Obligations.DoneMeansTheStreamIsTiled := by
  intro bs k t h hdone
  have hip := ip_of_done h hdone
  obtain ⟨is, hwf, hbytes, hout⟩ := (listed_of_run h).tiled
  rw [hip, List.take_length] at hbytes
  exact ⟨is, hwf, hbytes, hout, hip⟩

/-! ### Runs on assembled instructions -/

/-- The state of a run on `bs` once it has decoded the instructions `is`. -/
def listedState (bs : List Byte) (is : List Instr) : State :=
  { State.start bs with out := listing is, ip := (assemble is).length }

/-- The instruction whose bytes come next is decoded next. -/
theorem step_listedState {bs more : List Byte} {is : List Instr} {i : Instr} (hi : i.wellFormed = true)
    (hbs : bs = assemble is ++ (encode i ++ more)) :
    Machine.step (listedState bs is) = .next (listedState bs (is ++ [i])) := by
  obtain ⟨hencoded, hshort, hlong⟩ := Laws.LengthIsEncoded.any i
  have hlen : bs.length = (assemble is).length + (i.len + more.length) := by
    rw [hbs, List.length_append, List.length_append, hencoded]
  have hip : (listedState bs is).ip = (assemble is).length := rfl
  have hslen : (listedState bs is).len = bs.length := rfl
  have hwindow : window (listedState bs is) maxLen (listedState bs is).ip = encode i ++ more.take (maxLen - i.len) := by
    rw [window_of_stream (bs := bs) (s := listedState bs is) rfl rfl (by omega), hip, hbs, List.drop_left, List.take_append, hencoded,
      List.take_of_length_le (show (encode i).length ≤ maxLen from hencoded.trans_le hlong)]
  have hfetch : fetch (listedState bs is) = .ok i := by
    rw [fetch, hwindow, decodeOfEncode i _ hi]
  rw [step_of_fetch_ok rfl (by omega) hfetch, exec_of_fits i _ (by omega)]
  simp only [listedState, State.advance, listing_append_singleton, assemble_append, assemble_singleton, List.length_append,
    hencoded]

/-- A sequence whose bytes come next is decoded in as many steps as it has instructions. -/
theorem run_listedState {bs more : List Byte} (is js : List Instr) (hwf : ∀ i ∈ js, i.wellFormed = true)
    (hbs : bs = assemble is ++ (assemble js ++ more)) :
    core.run js.length (listedState bs is) = .next (listedState bs (is ++ js)) := by
  induction js generalizing is with
  | nil =>
    rw [List.append_nil]
    rfl
  | cons i js ih =>
    obtain ⟨hi, hjs⟩ := List.forall_mem_cons.mp hwf
    rw [← List.singleton_append, assemble_append, assemble_singleton, List.append_assoc] at hbs
    rw [List.length_cons, run_succ (step_listedState hi hbs), ih (is ++ [i]) hjs, List.append_assoc, List.singleton_append]
    rw [hbs, assemble_append, assemble_singleton, List.append_assoc]

/-- A run on assembled instructions and more bytes decodes the instructions. -/
theorem run_assemble {is : List Instr} (hwf : ∀ i ∈ is, i.wellFormed = true) (more : List Byte) :
    core.run is.length (State.start (assemble is ++ more)) = .next (listedState (assemble is ++ more) is) :=
  run_listedState [] is hwf rfl

/-- Settles O57: the instructions are decoded, and one more step finds the end of the stream. -/
theorem assembledInstructionsAreListed : Obligations.AssembledInstructionsAreListed := by
  intro is hwf
  have hrun := run_assemble hwf []
  rw [List.append_nil] at hrun
  rw [run_add hrun, run_succ (step_at_end rfl rfl)]
  rfl

/-- Settles O58: the bytes before the faulting instruction are assembled instructions. -/
theorem faultLeavesACompletePrefix : Obligations.FaultLeavesACompletePrefix := by
  intro bs n t c h _
  obtain ⟨-, -, hbound, is, hwf, hbytes, hout⟩ := listed_of_run h
  refine ⟨is.length + 1, _, hbytes ▸ assembledInstructionsAreListed is hwf, rfl, hout.symm, ?_⟩
  exact List.length_take_of_le hbound

/-- Settles O59: the stream of a complete run is assembled instructions, which are decoded whatever follows. -/
theorem extendingADecodedStreamKeepsItsOutput : Obligations.ExtendingADecodedStreamKeepsItsOutput := by
  intro bs more n t h hdone
  obtain ⟨is, hwf, rfl, hout, -⟩ := doneMeansTheStreamIsTiled bs n t h hdone
  exact ⟨is.length, _, run_assemble hwf more, rfl, hout.symm, rfl⟩

end Sys2Proof.Machine
end
